-- ==== Sys2Proof/Word.lean ====
section
/-! DEFINITION. The bit widths of the block (00_scope.md R3) and the type of a line of text. -/

namespace Sys2Proof

/-- One cell of `BUF`: eight bits (10_state.md R16). -/
abbrev Byte := BitVec 8

/-- `displacement_or_immediate`: a 16-bit pattern (00_scope.md R3, `IMM_BITS`). -/
abbrev Word := BitVec 16

/-- An operand selector: three bits, so a value outside 0 to 7 has no representation
(40_field_tables.md R84). -/
abbrev Selector := BitVec 3

/-- A line of text as the sequence of its characters, the line feed included (44_renderer.md R131). -/
abbrev Line := List Char

end Sys2Proof
end

