-- ==== Sys2Proof/Syntax.lean ====
section
/-! DEFINITION. The names the spec gives things (tags, widths, directions, modes, registers, error kinds) and
the ten instruction forms of spec/opcode_table.json. -/

namespace Sys2Proof

/-- The record's `opcode` tag (10_state.md R18). -/
inductive Opcode where
  | movRm   -- MOV_RM, register/memory MOV
  | movIr   -- MOV_IR, immediate-to-register MOV
deriving DecidableEq, Repr

/-- The W bit: byte (0) or word (1) operands (30_encoding.md R54, R58). -/
inductive Width where
  | byte
  | word
deriving DecidableEq, Repr

/-- The D bit: REG is the source (0) or the destination (1) (30_encoding.md R54). -/
inductive Direction where
  | regIsSource
  | regIsDest
deriving DecidableEq, Repr

/-- The four values of `mode` (30_encoding.md R56); their numbers are in Decode.lean. -/
inductive Mode where
  | mem0    -- memory form, no displacement
  | mem8    -- memory form, 8-bit displacement
  | mem16   -- memory form, 16-bit displacement
  | reg     -- register-direct
deriving DecidableEq, Repr

/-- The sixteen register names (10_state.md R10). They are opaque labels: none aliases another (R11). -/
inductive RegName where
  | al | cl | dl | bl | ah | ch | dh | bh
  | ax | cx | dx | bx | sp | bp | si | di
deriving DecidableEq, Repr

/-- The four error kinds of 60_exceptions.md R160. -/
inductive ErrorKind where
  | fileUnavailable      -- the host's, before a run (R161)
  | unrecognizedOpcode   -- R162
  | invalidField         -- R163
  | truncatedStream      -- R164
deriving DecidableEq, Repr

/-- One constructor per row of spec/opcode_table.json (30_encoding.md R72). A displacement or immediate is
carried as the 16-bit pattern the decode call puts in the record, already sign-extended where the form
extends it (30_encoding.md R60, R61). -/
inductive Instr where
  /-- `MOV.RM_R.REG` (42 R101) -/
  | movRmRReg (w : Width) (reg rm : Selector)
  /-- `MOV.RM_R.MEM0` (42 R102) -/
  | movRmRMem0 (w : Width) (reg rm : Selector)
  /-- `MOV.RM_R.MEM8` (42 R103) -/
  | movRmRMem8 (w : Width) (reg rm : Selector) (disp : Word)
  /-- `MOV.RM_R.MEM16` (42 R104) -/
  | movRmRMem16 (w : Width) (reg rm : Selector) (disp : Word)
  /-- `MOV.R_RM.REG` (42 R105) -/
  | movRRmReg (w : Width) (reg rm : Selector)
  /-- `MOV.R_RM.MEM0` (42 R106) -/
  | movRRmMem0 (w : Width) (reg rm : Selector)
  /-- `MOV.R_RM.MEM8` (42 R107) -/
  | movRRmMem8 (w : Width) (reg rm : Selector) (disp : Word)
  /-- `MOV.R_RM.MEM16` (42 R108) -/
  | movRRmMem16 (w : Width) (reg rm : Selector) (disp : Word)
  /-- `MOV.R_IMM8` (43 R121) -/
  | movRImm8 (reg : Selector) (imm : Word)
  /-- `MOV.R_IMM16` (43 R122) -/
  | movRImm16 (reg : Selector) (imm : Word)
deriving DecidableEq, Repr

end Sys2Proof
end

