-- ==== Sys2Proof/Config.lean ====
section
/-! DEFINITION. What the spec leaves to a realisation: the open parameters of 00_scope.md's table and the values
it calls unspecified. -/

namespace Sys2Proof

/-- The open parameter `DIRECT_ADDRESS_POLICY` (30_encoding.md R70, 92_eei_decisions.md D10). The state
holds its value, constant during a run (log 2). -/
inductive DirectAddressPolicy where
  | asDocumented   -- mode 00 with rm = 6 decodes like every other mode-00 form
  | refuse         -- mode 00 with rm = 6 raises InvalidField
deriving DecidableEq, Repr

/-- The spec's default for `DIRECT_ADDRESS_POLICY` (00_scope.md parameter table). -/
def Config.defaultPolicy : DirectAddressPolicy := .asDocumented

/-- `EXIT_CODE(kind)` less one: the spec fixes only that the code is nonzero (60_exceptions.md R167, D9).
FREE VALUE (log 13). -/
opaque Config.exitCodePred : ErrorKind → Nat

/-- What the host reads as `status.info.position` where no failure has written it: unspecified
(10_state.md R26, 93_implementation_defined.md U11). FREE VALUE (log 5). The argument is the cursor. -/
opaque Config.freeInfoPosition : Nat → Nat

/-- What the host reads as `status.info.byte` where it is not meaningful (10_state.md R14 field table, U11).
FREE VALUE (log 5). The argument is the cursor. -/
opaque Config.freeInfoByte : Nat → Byte

end Sys2Proof
end

