-- ==== Sys2Proof/Decode.lean ====
section
/-! DEFINITION. The instruction decoder on the bytes available at a position (the at most four bytes of
20_memory.md R46): classification (41_opcode_parser.md R90), the register/memory path (42_mov_rm_reg.md R100), the
immediate path (43_mov_imm_reg.md R120); and after it the encoder, written from the same formats. -/

namespace Sys2Proof

/-! ## Bit fields -/

/-- `0` = byte, `1` = word (30_encoding.md R54, R58). -/
def Width.ofBit (b : Bool) : Width := if b then .word else .byte

def Width.bit : Width → BitVec 1
  | .byte => 0#1
  | .word => 1#1

/-- `1` = REG is the destination (30_encoding.md R54). -/
def Direction.ofBit (b : Bool) : Direction := if b then .regIsDest else .regIsSource

def Direction.bit : Direction → BitVec 1
  | .regIsSource => 0#1
  | .regIsDest => 1#1

/-- The numbers of the modes (30_encoding.md R56). PRESUMED for 00, 01, 10 (the spec's general knowledge, log 6). -/
def Mode.bits : Mode → BitVec 2
  | .mem0 => 0b00#2
  | .mem8 => 0b01#2
  | .mem16 => 0b10#2
  | .reg => 0b11#2

def Mode.ofBits (b : BitVec 2) : Mode :=
  if b = 0b00#2 then .mem0 else if b = 0b01#2 then .mem8 else if b = 0b10#2 then .mem16 else .reg

/-- The R/M format's `direction`, `b0[1]` (30_encoding.md R54). -/
def rmDirection (b0 : Byte) : Direction := Direction.ofBit (b0.getLsbD 1)

/-- The R/M format's `width`, `b0[0]` (30_encoding.md R54). -/
def rmWidth (b0 : Byte) : Width := Width.ofBit (b0.getLsbD 0)

/-- `mode`, the mode byte's bits 7:6 (30_encoding.md R55). -/
def modeField (b1 : Byte) : Mode := Mode.ofBits (b1.extractLsb' 6 2)

/-- `reg` of the R/M format, the mode byte's bits 5:3 (30_encoding.md R55). -/
def regField (b1 : Byte) : Selector := b1.extractLsb' 3 3

/-- `rm`, the mode byte's bits 2:0 (30_encoding.md R55). -/
def rmField (b1 : Byte) : Selector := b1.extractLsb' 0 3

/-- The immediate format's `width`, `b0[3]` (30_encoding.md R58). -/
def irWidth (b0 : Byte) : Width := Width.ofBit (b0.getLsbD 3)

/-- `reg` of the immediate format, `b0[2:0]` (30_encoding.md R58). -/
def irReg (b0 : Byte) : Selector := b0.extractLsb' 0 3

/-- Two bytes, low byte first, as a 16-bit pattern (20_memory.md R31). For the displacement the order is
PRESUMED (the spec's general knowledge, log 7). -/
def le16 (lo hi : Byte) : Word := hi ++ lo

/-- `sext_16`: the byte itself when its bit 7 is 0, else `0xFF00` more (00_scope.md R4 notation;
70_reset_and_hazards.md R197). -/
def sext16 (v : Byte) : Word := if v.getLsbD 7 then 0xFF00#16 + v.setWidth 16 else v.setWidth 16

/-- The low byte of a 16-bit pattern. -/
def lowByte (v : Word) : Byte := v.extractLsb' 0 8

/-- The high byte of a 16-bit pattern. -/
def highByte (v : Word) : Byte := v.extractLsb' 8 8

/-! ## Classification -/

/-- The classification list of 30_encoding.md R65: mask, fixed pattern, class, most specific first. -/
def classTable : List (Byte × Byte × Opcode) :=
  [(0xFC#8, 0x88#8, .movRm), (0xF0#8, 0xB0#8, .movIr)]

/-- The class of a first byte; `none` is "unrecognised" (41_opcode_parser.md R91). -/
def classify (b0 : Byte) : Option Opcode :=
  (classTable.find? fun row => b0 &&& row.1 == row.2.1).map fun row => row.2.2

/-! ## The two field extractors -/

/-- Mode 00 with `rm` = 6, the form `DIRECT_ADDRESS_POLICY` is about (30_encoding.md R70). -/
def isDirectAddress (mode : Mode) (rm : Selector) : Bool := mode = .mem0 && rm = 6#3

/-- The displacement from the bytes after the mode byte; `none` when one is missing (30_encoding.md R57, R61). -/
def displacement : Mode → List Byte → Option Word
  | .reg, _ => some 0
  | .mem0, _ => some 0
  | .mem8, lo :: _ => some (sext16 lo)
  | .mem8, [] => none
  | .mem16, lo :: hi :: _ => some (le16 lo hi)
  | .mem16, [_] => none
  | .mem16, [] => none

/-- The immediate from the bytes after the first byte; `none` when one is missing (30_encoding.md R59, R60). -/
def immediate : Width → List Byte → Option Word
  | .byte, lo :: _ => some (sext16 lo)
  | .byte, [] => none
  | .word, lo :: hi :: _ => some (le16 lo hi)
  | .word, [_] => none
  | .word, [] => none

/-- The register/memory form that `direction` and `mode` select (30_encoding.md R72, its table). -/
def rmInstr (d : Direction) (mode : Mode) (w : Width) (reg rm : Selector) (disp : Word) : Instr :=
  match d, mode with
  | .regIsSource, .reg => .movRmRReg w reg rm
  | .regIsSource, .mem0 => .movRmRMem0 w reg rm
  | .regIsSource, .mem8 => .movRmRMem8 w reg rm disp
  | .regIsSource, .mem16 => .movRmRMem16 w reg rm disp
  | .regIsDest, .reg => .movRRmReg w reg rm
  | .regIsDest, .mem0 => .movRRmMem0 w reg rm
  | .regIsDest, .mem8 => .movRRmMem8 w reg rm disp
  | .regIsDest, .mem16 => .movRRmMem16 w reg rm disp

/-- The immediate form that `width` selects (30_encoding.md R72, its table). -/
def irInstr (w : Width) (reg : Selector) (imm : Word) : Instr :=
  match w with
  | .byte => .movRImm8 reg imm
  | .word => .movRImm16 reg imm

/-- `decode_rm` (42_mov_rm_reg.md R100), given the first byte and the bytes after it. -/
def decodeRm (policy : DirectAddressPolicy) (b0 : Byte) : List Byte → Except ErrorKind Instr
  | [] => .error .truncatedStream
  | b1 :: rest =>
    if policy = .refuse && isDirectAddress (modeField b1) (rmField b1) then .error .invalidField
    else match displacement (modeField b1) rest with
      | none => .error .truncatedStream
      | some disp => .ok (rmInstr (rmDirection b0) (modeField b1) (rmWidth b0) (regField b1) (rmField b1) disp)

/-- `decode_ir` (43_mov_imm_reg.md R120), given the first byte and the bytes after it. -/
def decodeIr (b0 : Byte) (rest : List Byte) : Except ErrorKind Instr :=
  match immediate (irWidth b0) rest with
  | none => .error .truncatedStream
  | some imm => .ok (irInstr (irWidth b0) (irReg b0) imm)

/-- `decode` (41_opcode_parser.md R90, R97) on the bytes available at the position. Total: no byte at all is
`TruncatedStream` (R92 (a)), an unrecognised first byte is refused by name whatever follows it. -/
def decodeBytes (policy : DirectAddressPolicy) : List Byte → Except ErrorKind Instr
  | [] => .error .truncatedStream
  | b0 :: rest =>
    match classify b0 with
    | some .movRm => decodeRm policy b0 rest
    | some .movIr => decodeIr b0 rest
    | none => .error .unrecognizedOpcode

/-! ## Length -/

/-- `length_bytes` of the register/memory path (30_encoding.md R56). -/
def rmLength : Mode → Nat
  | .reg => 2
  | .mem0 => 2
  | .mem8 => 3
  | .mem16 => 4

/-- `length_bytes` of the immediate path (30_encoding.md R62). -/
def irLength : Width → Nat
  | .byte => 2
  | .word => 3

/-- The length of an instruction as a function of its first two bytes (30_encoding.md R62); `none` for an
unrecognised first byte. -/
def lengthOfHead (b0 b1 : Byte) : Option Nat :=
  match classify b0 with
  | some .movRm => some (rmLength (modeField b1))
  | some .movIr => some (irLength (irWidth b0))
  | none => none

/-! ## The encoder -/

/-- `100010dw` (30_encoding.md R52, R54). -/
def rmFirstByte (d : Direction) (w : Width) : Byte := 0b100010#6 ++ d.bit ++ w.bit

/-- `mod reg rm` (30_encoding.md R55). -/
def modeByte (mode : Mode) (reg rm : Selector) : Byte := mode.bits ++ reg ++ rm

/-- `1011wreg` (30_encoding.md R53, R58). -/
def irFirstByte (w : Width) (reg : Selector) : Byte := 0b1011#4 ++ w.bit ++ reg

/-- The bytes of an instruction in increasing offset order (30_encoding.md R72, its `encoding` column). -/
def encode : Instr → List Byte
  | .movRmRReg w reg rm => [rmFirstByte .regIsSource w, modeByte .reg reg rm]
  | .movRmRMem0 w reg rm => [rmFirstByte .regIsSource w, modeByte .mem0 reg rm]
  | .movRmRMem8 w reg rm disp => [rmFirstByte .regIsSource w, modeByte .mem8 reg rm, lowByte disp]
  | .movRmRMem16 w reg rm disp =>
    [rmFirstByte .regIsSource w, modeByte .mem16 reg rm, lowByte disp, highByte disp]
  | .movRRmReg w reg rm => [rmFirstByte .regIsDest w, modeByte .reg reg rm]
  | .movRRmMem0 w reg rm => [rmFirstByte .regIsDest w, modeByte .mem0 reg rm]
  | .movRRmMem8 w reg rm disp => [rmFirstByte .regIsDest w, modeByte .mem8 reg rm, lowByte disp]
  | .movRRmMem16 w reg rm disp =>
    [rmFirstByte .regIsDest w, modeByte .mem16 reg rm, lowByte disp, highByte disp]
  | .movRImm8 reg imm => [irFirstByte .byte reg, lowByte imm]
  | .movRImm16 reg imm => [irFirstByte .word reg, lowByte imm, highByte imm]

/-! ## Words numbered as spec/opcode_table.json numbers them -/

/-- The four bytes, lowest offset first, of an instruction given as a number: the table's first word is the
16-bit `head` = `b0 ‖ b1` (30_encoding.md R72), so `b0` is bits 15:8 and `b1` bits 7:0; the third and fourth bytes
count on from it (bits 23:16 and 31:24). Bits from `nbits` up are zero (log 14). -/
def tableBytes (nbits w : Nat) : List Byte :=
  let v := w % 2 ^ nbits
  [BitVec.ofNat 8 (v / 2 ^ 8), BitVec.ofNat 8 v, BitVec.ofNat 8 (v / 2 ^ 16), BitVec.ofNat 8 (v / 2 ^ 24)]

/-- What the decoder reads from those bytes under the default policy. -/
def decodeTableWord (nbits w : Nat) : Option Instr :=
  match decodeBytes Config.defaultPolicy (tableBytes nbits w) with
  | .ok i => some i
  | .error _ => none

end Sys2Proof
end

