-- ==== Sys2Proof/Machine/State.lean ====
section
/-! DEFINITION. The machine's state as plain data (10_state.md), the reasons a step can stop, and the state right
after reset. -/

namespace Sys2Proof.Machine

/-- What an error records (60_exceptions.md R166): the position of the failing decode call, and its first byte
for `UnrecognizedOpcode` only. -/
structure Info where
  position : Nat
  byte : Option Byte
deriving DecidableEq, Repr

/-- The run status register (10_state.md R14): three values. -/
inductive Status where
  | running
  | done
  | failed (kind : ErrorKind) (info : Info)
deriving DecidableEq, Repr

/-- `BUF` as a list of (offset, byte) cells: offsets strictly rising, no cell equal to what an unlisted offset
reads as (`Memory.wf` in Machine/Ops.lean). -/
abbrev Memory := List Host.Cell

/-- Every piece of state of 10_state.md §1, and the open parameter `DIRECT_ADDRESS_POLICY`. The two ROMs are
constants, not state (R17). -/
structure State where
  buf : Memory                      -- BUF (R16), constant during a run
  n : Nat                           -- N (R16), constant during a run
  pc : Nat                          -- the stream cursor (R12), unbounded (D2)
  status : Status                   -- the run status register (R14)
  out : List Line                   -- OUT (R15), oldest line first
  policy : DirectAddressPolicy      -- DIRECT_ADDRESS_POLICY (30 R70), constant during a run; log 2
deriving DecidableEq, Repr

/-- Why the machine stops: no step is enabled (45_stream_driver.md R150). Log 1. -/
inductive Fault where
  /-- Raised by `whenRunning` when `status` is `DONE`: the run is over. Safe: the machine stops, as the spec
  says. -/
  | runDone
  /-- Raised by `whenRunning` when `status` is `FAILED`: the run is over. Safe: the machine stops, as the spec
  says. -/
  | runFailed
deriving DecidableEq, Repr

/-- Why an instruction has no meaning. -/
inductive Refusal where
  /-- Raised by an arm of `exec` whose instruction is not modelled yet; no arm of this model raises it. Safe. -/
  | notModelled (mnemonic : String)
deriving DecidableEq, Repr

/-- Right after reset (10_state.md R26), with nothing loaded: `BUF` empty and `N` = 0 (log 4), the policy at the
spec's default. -/
def State.reset : State where
  buf := []
  n := 0
  pc := 0
  status := .running
  out := []
  policy := Config.defaultPolicy

end Sys2Proof.Machine
end

