-- ==== Sys2Proof/Machine/Ops.lean ====
section
/-! DEFINITION. The named operations over the buffer, the cursor, the status register and the output; taking an
error (60_exceptions.md R170), the block's only exception entry. There is no return from an error (R172). -/

namespace Sys2Proof.Machine

/-! ## The buffer -/

/-- What an offset that is not listed reads as. DESIGN CHOICE (log 3). -/
def unlistedByte : Byte := 0#8

/-- The byte at offset `a`. -/
def Memory.read : Memory → Nat → Byte
  | [], _ => unlistedByte
  | (k, b) :: m, a => if k = a then b else Memory.read m a

/-- Put a byte at offset `a`, keeping the canonical form. The block never does this (20_memory.md R37); the host
does, before a run (70_reset_and_hazards.md R192). -/
def Memory.write : Memory → Nat → Byte → Memory
  | [], a, v => if v = unlistedByte then [] else [(a, v)]
  | (k, b) :: m, a, v =>
    if a < k then (if v = unlistedByte then (k, b) :: m else (a, v) :: (k, b) :: m)
    else if a = k then (if v = unlistedByte then m else (a, v) :: m)
    else (k, b) :: Memory.write m a v

/-- Put bytes at `a`, `a + 1`, … -/
def Memory.writeBytes : Memory → Nat → List Byte → Memory
  | m, _, [] => m
  | m, a, v :: vs => Memory.writeBytes (Memory.write m a v) (a + 1) vs

/-- Every listed offset is at least `lo`, the offsets strictly rise, and no cell holds `unlistedByte`. -/
def Memory.wfFrom : Nat → Memory → Bool
  | _, [] => true
  | lo, (k, b) :: m => decide (lo ≤ k) && decide (b ≠ unlistedByte) && Memory.wfFrom (k + 1) m

/-- The canonical form. -/
def Memory.wf (m : Memory) : Bool := Memory.wfFrom 0 m

/-- A read of `BUF`, admitted only below `N` (20_memory.md R39). -/
def bufRead (s : State) (a : Nat) : Option Byte :=
  if a < s.n then some (s.buf.read a) else none

/-- The bytes that remain from position `p`, `N - p` (41_opcode_parser.md R94). -/
def avail (s : State) (p : Nat) : Nat := s.n - p

/-- The decoder's window at `p`: the bytes at `p .. min(p+3, N-1)` (20_memory.md R46). -/
def window (s : State) (p : Nat) : List Byte :=
  (List.range (min (avail s p) 4)).map fun k => s.buf.read (p + k)

/-- `decode(BUF, N, p)` (41_opcode_parser.md R90). -/
def decodeAt (s : State) (p : Nat) : Except ErrorKind Instr :=
  decodeBytes s.policy (window s p)

/-! ## The driver's effects -/

/-- A step is enabled only when `status` is `RUNNING` (45_stream_driver.md R150). -/
def whenRunning (s : State) (k : Host.Outcome State Fault Refusal) : Host.Outcome State Fault Refusal :=
  match s.status with
  | .running => k
  | .done => .fault .runDone
  | .failed _ _ => .fault .runFailed

/-- The information an error records (60_exceptions.md R166). -/
def errorInfo (s : State) (kind : ErrorKind) : Info where
  position := s.pc
  byte := if kind = .unrecognizedOpcode then bufRead s s.pc else none

/-- Taking an error (60_exceptions.md R170): `status` is written and nothing else. -/
def takeError (s : State) (kind : ErrorKind) : State :=
  { s with status := .failed kind (errorInfo s kind) }

/-- `emit(line)`: append one line to `OUT` (10_state.md R15). -/
def emit (s : State) (line : Line) : State := { s with out := s.out ++ [line] }

/-- `pc <- pc + length_bytes` (10_state.md R13). -/
def advance (s : State) (len : Nat) : State := { s with pc := s.pc + len }

/-- `status <- DONE` (45_stream_driver.md R152). -/
def finish (s : State) : State := { s with status := .done }

/-! ## The status register as the host reads it -/

/-- The numeric error codes (60_exceptions.md R160). -/
def errorCode : ErrorKind → BitVec 3
  | .fileUnavailable => 1#3
  | .unrecognizedOpcode => 2#3
  | .invalidField => 3#3
  | .truncatedStream => 4#3

/-- Field `state`, bits 1:0 of `status` (10_state.md R14 field table). -/
def statusState : Status → BitVec 2
  | .running => 0#2
  | .done => 1#2
  | .failed _ _ => 2#2

/-- Field `kind`, bits 4:2 of `status`: 0 unless `state` = 2 (10_state.md R14 field table). -/
def statusKind : Status → BitVec 3
  | .running => 0#3
  | .done => 0#3
  | .failed kind _ => errorCode kind

/-- The register's five encoded bits. -/
def statusBits (st : Status) : BitVec 5 := statusKind st ++ statusState st

/-- Field `info.position`: a free value where no failure has written it (log 5). -/
def statusPosition (s : State) : Nat :=
  match s.status with
  | .failed _ info => info.position
  | .running => Config.freeInfoPosition s.pc
  | .done => Config.freeInfoPosition s.pc

/-- Field `info.byte`: a free value where it is not meaningful (log 5). -/
def statusByte (s : State) : Byte :=
  match s.status with
  | .failed .unrecognizedOpcode ⟨_, some b⟩ => b
  | _ => Config.freeInfoByte s.pc

/-! ## Placing an instruction where the next step fetches it -/

/-- The buffer with `bytes` at the cursor and `N` large enough to hold them; the run is `RUNNING`, since only then
is a step enabled. -/
def placeAtPc (s : State) (bytes : List Byte) : State :=
  { s with
    buf := s.buf.writeBytes s.pc bytes
    n := max s.n (s.pc + bytes.length)
    status := .running }

end Sys2Proof.Machine
end

