-- ==== Sys2Proof/Machine/Operands.lean ====
section
/-! DEFINITION. The decoded-instruction record (10_state.md R18), the two ROMs (40_field_tables.md) and the
operands a record names (42_mov_rm_reg.md R109, 43_mov_imm_reg.md R120). -/

namespace Sys2Proof.Machine

/-! ## The ROMs -/

/-- `REGNAME` (40_field_tables.md R81), a table per width in selector order (log 9). -/
def regRom : Width → Vector RegName 8
  | .byte => #v[.al, .cl, .dl, .bl, .ah, .ch, .dh, .bh]
  | .word => #v[.ax, .cx, .dx, .bx, .sp, .bp, .si, .di]

/-- `resolve_operand_name(selector, width)` (40_field_tables.md R80), by direct index (R83). -/
def regName (w : Width) (sel : Selector) : RegName := (regRom w).get sel.toFin

/-- `EANAME` (40_field_tables.md R85): the base register or registers each `rm` names. PRESUMED (the spec's general
knowledge, log 8). -/
def eaRom : Vector (List RegName) 8 :=
  #v[[.bx, .si], [.bx, .di], [.bp, .si], [.bp, .di], [.si], [.di], [.bp], [.bx]]

/-- `EANAME[rm]`, whatever the mode (40_field_tables.md R86). -/
def eaBase (rm : Selector) : List RegName := eaRom.get rm.toFin

/-! ## The record -/

/-- The attributes of a register/memory record (10_state.md R18). -/
structure RmRecord where
  direction : Direction
  width : Width
  mode : Mode
  reg : Selector
  rm : Selector
  disp : Word
  lengthBytes : Nat
deriving DecidableEq, Repr

/-- The attributes of an immediate-to-register record: `direction`, `mode` and `rm` are absent
(10_state.md R18, R19). -/
structure IrRecord where
  width : Width
  reg : Selector
  imm : Word
  lengthBytes : Nat
deriving DecidableEq, Repr

/-- A decoded instruction: a sum of two shapes, so that an absent attribute cannot be read (10_state.md R19). -/
inductive Record where
  | movRm (r : RmRecord)
  | movIr (r : IrRecord)
deriving DecidableEq, Repr

def Record.opcode : Record → Opcode
  | .movRm _ => .movRm
  | .movIr _ => .movIr

def Record.lengthBytes : Record → Nat
  | .movRm r => r.lengthBytes
  | .movIr r => r.lengthBytes

/-- The record of a register/memory form (42_mov_rm_reg.md R100). -/
def rmRecord (d : Direction) (mode : Mode) (w : Width) (reg rm : Selector) (disp : Word) : Record :=
  .movRm { direction := d, width := w, mode := mode, reg := reg, rm := rm, disp := disp, lengthBytes := rmLength mode }

/-- The record of an immediate form (43_mov_imm_reg.md R120). -/
def irRecord (w : Width) (reg : Selector) (imm : Word) : Record :=
  .movIr { width := w, reg := reg, imm := imm, lengthBytes := irLength w }

/-- The record a successful decode call returns for an instruction. -/
def instrRecord : Instr → Record
  | .movRmRReg w reg rm => rmRecord .regIsSource .reg w reg rm 0
  | .movRmRMem0 w reg rm => rmRecord .regIsSource .mem0 w reg rm 0
  | .movRmRMem8 w reg rm disp => rmRecord .regIsSource .mem8 w reg rm disp
  | .movRmRMem16 w reg rm disp => rmRecord .regIsSource .mem16 w reg rm disp
  | .movRRmReg w reg rm => rmRecord .regIsDest .reg w reg rm 0
  | .movRRmMem0 w reg rm => rmRecord .regIsDest .mem0 w reg rm 0
  | .movRRmMem8 w reg rm disp => rmRecord .regIsDest .mem8 w reg rm disp
  | .movRRmMem16 w reg rm disp => rmRecord .regIsDest .mem16 w reg rm disp
  | .movRImm8 reg imm => irRecord .byte reg imm
  | .movRImm16 reg imm => irRecord .word reg imm

/-! ## The operands -/

/-- An operand of a decoded instruction. A memory form is named, never accessed (20_memory.md R36). -/
inductive Operand where
  | reg (name : RegName)
  | mem (base : List RegName) (disp : Int)
  | imm (value : Int)
deriving DecidableEq, Repr

/-- `signed_16`: the pattern read as two's complement (30_encoding.md R63). -/
def signed16 (v : Word) : Int := if v.toNat < 0x8000 then (v.toNat : Int) else (v.toNat : Int) - 65536

/-- The REG operand is always a register (42_mov_rm_reg.md R109). -/
def regOperand (r : RmRecord) : Operand := .reg (regName r.width r.reg)

/-- The R/M operand: a register of the same width for mode 11, else a memory form. It depends on `mode` alone,
never on `direction` (42_mov_rm_reg.md R109; 40_field_tables.md R87). -/
def rmOperand (r : RmRecord) : Operand :=
  match r.mode with
  | .reg => .reg (regName r.width r.rm)
  | .mem0 => .mem (eaBase r.rm) (signed16 r.disp)
  | .mem8 => .mem (eaBase r.rm) (signed16 r.disp)
  | .mem16 => .mem (eaBase r.rm) (signed16 r.disp)

end Sys2Proof.Machine
end

