-- ==== Sys2Proof/Machine/Flags.lean ====
section
/-! DEFINITION. The block has no status flags (10_state.md R22): no instruction computes, reads or writes one. The
only "flags" of the spec are two bits of the instruction, W (which Operands.lean reads) and D, whose one effect,
the order of the two operands, stands here. -/

namespace Sys2Proof.Machine

/-- The D bit: with `direction` 1 the REG operand is the destination, with 0 the source. The swap exchanges
positions only (44_renderer.md R132, R133). The result is (destination, source). -/
def byDirection (d : Direction) (regOp rmOp : Operand) : Operand × Operand :=
  match d with
  | .regIsDest => (regOp, rmOp)
  | .regIsSource => (rmOp, regOp)

/-- The (destination, source) of a record (42_mov_rm_reg.md R109; 43_mov_imm_reg.md R120). -/
def operands : Record → Operand × Operand
  | .movRm r => byDirection r.direction (regOperand r) (rmOperand r)
  | .movIr r => (.reg (regName r.width r.reg), .imm (signed16 r.imm))

end Sys2Proof.Machine
end

