-- ==== Sys2Proof/Machine/Render.lean ====
section
/-! DEFINITION. The Renderer (44_renderer.md): a record to one line of text. -/

namespace Sys2Proof.Machine

/-- The text of a register name: two lower-case letters (40_field_tables.md R81). -/
def regText : RegName → Line
  | .al => ['a', 'l'] | .cl => ['c', 'l'] | .dl => ['d', 'l'] | .bl => ['b', 'l']
  | .ah => ['a', 'h'] | .ch => ['c', 'h'] | .dh => ['d', 'h'] | .bh => ['b', 'h']
  | .ax => ['a', 'x'] | .cx => ['c', 'x'] | .dx => ['d', 'x'] | .bx => ['b', 'x']
  | .sp => ['s', 'p'] | .bp => ['b', 'p'] | .si => ['s', 'i'] | .di => ['d', 'i']

/-- Space, plus, space: the one separator of memory operands (40_field_tables.md R85, 44_renderer.md R134). -/
def plusText : Line := [' ', '+', ' ']

/-- The base registers' names joined by `plusText` (40_field_tables.md R85). -/
def baseText : List RegName → Line
  | [] => []
  | [r] => regText r
  | r :: rs => regText r ++ plusText ++ baseText rs

/-- The decimal digit of `d`, for `d` < 10. -/
def digitChar (d : Nat) : Char := Char.ofNat (48 + d)

/-- The decimal digits of `v`, most significant first, at most `fuel` + 1 of them. -/
def digitsText : Nat → Nat → Line
  | 0, v => [digitChar (v % 10)]
  | fuel + 1, v => if v < 10 then [digitChar v] else digitsText fuel (v / 10) ++ [digitChar (v % 10)]

/-- `dec(v)` (44_renderer.md R137). Its domain is -32768 .. 32767, so five digits are enough. DESIGN CHOICE of the
spec (D17, log 10). -/
def decText (v : Int) : Line :=
  if v < 0 then '-' :: digitsText 4 v.natAbs else digitsText 4 v.natAbs

/-- The text of a memory operand; a zero displacement is not printed (44_renderer.md R134, R135). -/
def memText (base : List RegName) (disp : Int) : Line :=
  if disp = 0 then '[' :: baseText base ++ [']']
  else '[' :: baseText base ++ plusText ++ decText disp ++ [']']

def operandText : Operand → Line
  | .reg name => regText name
  | .mem base disp => memText base disp
  | .imm value => decText value

/-- `mov`, a space, the destination, `", "`, the source, a line feed (44_renderer.md R131). -/
def lineText (dst src : Operand) : Line :=
  ['m', 'o', 'v', ' '] ++ operandText dst ++ [',', ' '] ++ operandText src ++ ['\n']

/-- `render(record)` (44_renderer.md R130, R132, R136). -/
def render (r : Record) : Line := lineText (operands r).1 (operands r).2

end Sys2Proof.Machine
end

