-- ==== Sys2Proof/Machine/Driver.lean ====
section
/-! DEFINITION. What the Stream Driver does with one decoded record (45_stream_driver.md R150): the one operation
that all ten meanings share. -/

namespace Sys2Proof.Machine

/-- The record is the form that `DIRECT_ADDRESS_POLICY` is about (30_encoding.md R70). -/
def recordIsDirectAddress : Record → Bool
  | .movRm r => isDirectAddress r.mode r.rm
  | .movIr _ => false

/-- The error that a form raises at the cursor, in the order of 60_exceptions.md R168 (3) to (5): fewer than two
bytes remain; the direct-address form under `refuse`; fewer bytes remain than the form's length. -/
def formError (r : Record) (s : State) : Option ErrorKind :=
  if avail s s.pc < 2 then some .truncatedStream
  else if s.policy = .refuse && recordIsDirectAddress r then some .invalidField
  else if avail s s.pc < r.lengthBytes then some .truncatedStream
  else none

/-- Decode, render, emit, advance, in that order (45_stream_driver.md R150, R151); the form's error is taken
instead where it raises one (R154). -/
def consume (r : Record) (s : State) : Host.Outcome State Fault Refusal :=
  whenRunning s <|
    match formError r s with
    | some kind => .next (takeError s kind)
    | none => .next (advance (emit s (render r)) r.lengthBytes)

end Sys2Proof.Machine
end

