-- ==== Sys2Proof/Machine/MovImmReg.lean ====
section
/-! DEFINITION. The two immediate-to-register forms (43_mov_imm_reg.md). -/

namespace Sys2Proof.Machine

/-- `MOV.R_IMM8` (43 R121). -/
def execMovRImm8 (reg : Selector) (imm : Word) (s : State) : Host.Outcome State Fault Refusal :=
  consume (irRecord .byte reg imm) s

/-- `MOV.R_IMM16` (43 R122). -/
def execMovRImm16 (reg : Selector) (imm : Word) (s : State) : Host.Outcome State Fault Refusal :=
  consume (irRecord .word reg imm) s

end Sys2Proof.Machine
end

