-- ==== Sys2Proof/Machine/MovRmReg.lean ====
section
/-! DEFINITION. The eight register/memory forms (42_mov_rm_reg.md). -/

namespace Sys2Proof.Machine

/-- `MOV.RM_R.REG` (42 R101). -/
def execMovRmRReg (w : Width) (reg rm : Selector) (s : State) : Host.Outcome State Fault Refusal :=
  consume (rmRecord .regIsSource .reg w reg rm 0) s

/-- `MOV.RM_R.MEM0` (42 R102). -/
def execMovRmRMem0 (w : Width) (reg rm : Selector) (s : State) : Host.Outcome State Fault Refusal :=
  consume (rmRecord .regIsSource .mem0 w reg rm 0) s

/-- `MOV.RM_R.MEM8` (42 R103). -/
def execMovRmRMem8 (w : Width) (reg rm : Selector) (disp : Word) (s : State) :
    Host.Outcome State Fault Refusal :=
  consume (rmRecord .regIsSource .mem8 w reg rm disp) s

/-- `MOV.RM_R.MEM16` (42 R104). -/
def execMovRmRMem16 (w : Width) (reg rm : Selector) (disp : Word) (s : State) :
    Host.Outcome State Fault Refusal :=
  consume (rmRecord .regIsSource .mem16 w reg rm disp) s

/-- `MOV.R_RM.REG` (42 R105). -/
def execMovRRmReg (w : Width) (reg rm : Selector) (s : State) : Host.Outcome State Fault Refusal :=
  consume (rmRecord .regIsDest .reg w reg rm 0) s

/-- `MOV.R_RM.MEM0` (42 R106). -/
def execMovRRmMem0 (w : Width) (reg rm : Selector) (s : State) : Host.Outcome State Fault Refusal :=
  consume (rmRecord .regIsDest .mem0 w reg rm 0) s

/-- `MOV.R_RM.MEM8` (42 R107). -/
def execMovRRmMem8 (w : Width) (reg rm : Selector) (disp : Word) (s : State) :
    Host.Outcome State Fault Refusal :=
  consume (rmRecord .regIsDest .mem8 w reg rm disp) s

/-- `MOV.R_RM.MEM16` (42 R108). -/
def execMovRRmMem16 (w : Width) (reg rm : Selector) (disp : Word) (s : State) :
    Host.Outcome State Fault Refusal :=
  consume (rmRecord .regIsDest .mem16 w reg rm disp) s

end Sys2Proof.Machine
end

