-- ==== Sys2Proof/Machine/Dispatch.lean ====
section
/-! DEFINITION. One arm per instruction form. -/

namespace Sys2Proof.Machine

def exec (i : Instr) (s : State) : Host.Outcome State Fault Refusal :=
  match i with
  | .movRmRReg w reg rm => Sys2Proof.Machine.execMovRmRReg w reg rm s
  | .movRmRMem0 w reg rm => Sys2Proof.Machine.execMovRmRMem0 w reg rm s
  | .movRmRMem8 w reg rm disp => Sys2Proof.Machine.execMovRmRMem8 w reg rm disp s
  | .movRmRMem16 w reg rm disp => Sys2Proof.Machine.execMovRmRMem16 w reg rm disp s
  | .movRRmReg w reg rm => Sys2Proof.Machine.execMovRRmReg w reg rm s
  | .movRRmMem0 w reg rm => Sys2Proof.Machine.execMovRRmMem0 w reg rm s
  | .movRRmMem8 w reg rm disp => Sys2Proof.Machine.execMovRRmMem8 w reg rm disp s
  | .movRRmMem16 w reg rm disp => Sys2Proof.Machine.execMovRRmMem16 w reg rm disp s
  | .movRImm8 reg imm => Sys2Proof.Machine.execMovRImm8 reg imm s
  | .movRImm16 reg imm => Sys2Proof.Machine.execMovRImm16 reg imm s

end Sys2Proof.Machine
end

