-- ==== Sys2Proof/Machine/Step.lean ====
section
/-! DEFINITION. One step of the Stream Driver (45_stream_driver.md R150). -/

namespace Sys2Proof.Machine

/-- Enabled only when `RUNNING`: at `pc` = `N` the run is `DONE`; otherwise the instruction at `pc` is decoded and
run, or the decode error is taken. -/
def step (s : State) : Host.Outcome State Fault Refusal :=
  whenRunning s <|
    if s.pc = s.n then .next (finish s)
    else
      match decodeAt s s.pc with
      | .ok i => exec i s
      | .error kind => .next (takeError s kind)

/-- `s` with the instruction that the table numbers `w` (on `nbits` bits) placed at the cursor, so that the next
step decodes and runs exactly it (log 4, log 14). -/
def State.withFetchWord (s : State) (nbits w : Nat) : State := placeAtPc s (tableBytes nbits w)

end Sys2Proof.Machine
end

