-- ==== Sys2Proof/Machine/Boot.lean ====
section
/-! DEFINITION. What the host does outside a run (70_reset_and_hazards.md R190 to R193, its host interaction table):
loading, reset, launch, and what it reads at the end. During a run it does nothing (20_memory.md R44). -/

namespace Sys2Proof.Machine

/-- Reset (70_reset_and_hazards.md R190): a new run on the same buffer. -/
def resetRun (s : State) : State := { s with pc := 0, status := .running, out := [] }

/-- Loading the whole input: byte `i` of the file at offset `i`, `N` the number of bytes
(70_reset_and_hazards.md R192). -/
def loadInput (s : State) (input : List Byte) : State :=
  { s with buf := Memory.writeBytes [] 0 input, n := input.length }

/-- Starting a run on an input, `none` when it cannot be opened or read: then the host reports `FileUnavailable`
and no run exists (60_exceptions.md R161). -/
def launch (policy : DirectAddressPolicy) : Option (List Byte) → Except ErrorKind State
  | none => .error .fileUnavailable
  | some input => .ok (resetRun (loadInput { State.reset with policy := policy } input))

/-- `EXIT_CODE(kind)`: some nonzero value (60_exceptions.md R167; log 13). -/
def exitCodeOf (kind : ErrorKind) : Nat := Config.exitCodePred kind + 1

/-- The process exit code once the run is over: 0 on `DONE`, nonzero on a failure (60_exceptions.md R167). -/
def exitCode : Status → Option Nat
  | .running => none
  | .done => some 0
  | .failed kind _ => some (exitCodeOf kind)

/-- The observation of a run (00_scope.md R9). -/
structure Observation where
  out : List Line
  status : Status
  pc : Nat
deriving DecidableEq, Repr

/-- What the host reads after the run; nothing while it is `RUNNING` (70_reset_and_hazards.md R193). -/
def observe (s : State) : Option Observation :=
  match s.status with
  | .running => none
  | .done => some { out := s.out, status := s.status, pc := s.pc }
  | .failed _ _ => some { out := s.out, status := s.status, pc := s.pc }

end Sys2Proof.Machine
end

