-- ==== Sys2Proof/WellFormed.lean ====
section
/-! DEFINITION. When a value of `Instr` is an instruction the hardware can read: a form whose displacement or
immediate is one byte carries that byte sign-extended (30_encoding.md R60, R61). Every other field is of a type
that has exactly the values the encoding admits (30_encoding.md R67). -/

namespace Sys2Proof

/-- The 16-bit pattern is the sign extension of its low byte. -/
def fitsByte (v : Word) : Bool := v = sext16 (lowByte v)

def Instr.wellFormed : Instr → Bool
  | .movRmRReg _ _ _ => true
  | .movRmRMem0 _ _ _ => true
  | .movRmRMem8 _ _ _ disp => fitsByte disp
  | .movRmRMem16 _ _ _ _ => true
  | .movRRmReg _ _ _ => true
  | .movRRmMem0 _ _ _ => true
  | .movRRmMem8 _ _ _ disp => fitsByte disp
  | .movRRmMem16 _ _ _ _ => true
  | .movRImm8 _ imm => fitsByte imm
  | .movRImm16 _ _ => true

/-- The form `DIRECT_ADDRESS_POLICY` is about: mode 00 with `rm` = 6 (30_encoding.md R70). -/
def Instr.isDirectAddress : Instr → Bool
  | .movRmRReg _ _ _ => false
  | .movRmRMem0 _ _ rm => Sys2Proof.isDirectAddress .mem0 rm
  | .movRmRMem8 _ _ _ _ => false
  | .movRmRMem16 _ _ _ _ => false
  | .movRRmReg _ _ _ => false
  | .movRRmMem0 _ _ rm => Sys2Proof.isDirectAddress .mem0 rm
  | .movRRmMem8 _ _ _ _ => false
  | .movRRmMem16 _ _ _ _ => false
  | .movRImm8 _ _ => false
  | .movRImm16 _ _ => false

end Sys2Proof
end

