-- ==== Sys2Proof/Safety.lean ====
section
/-! DEFINITION. The terms in which claims are stated: what an outcome is, the record invariants (10_state.md R20),
the syntax of an output line (44_renderer.md R138), the invariant of a run, and the spec's own pseudocode of `decode`
read byte by byte (41_opcode_parser.md R90), against which the window decoder is compared. -/

namespace Sys2Proof.Safety

open Sys2Proof.Machine

/-! ## The record invariants -/

/-- 10_state.md R20 (b), (c), (d), with the lengths of R18's table and the extension rules of 30_encoding.md R60 and
R61; (a) holds by the type of a selector. -/
def recordValid : Record → Prop
  | .movRm r =>
    (r.mode = .reg ↔ ∃ name, rmOperand r = .reg name) ∧
    (r.mode ≠ .reg ↔ ∃ base disp, rmOperand r = .mem base disp) ∧
    (r.mode = .reg ∨ r.mode = .mem0 → r.lengthBytes = 2) ∧
    (r.mode = .mem8 → r.lengthBytes = 3) ∧
    (r.mode = .mem16 → r.lengthBytes = 4) ∧
    (r.mode = .reg ∨ r.mode = .mem0 → r.disp = 0) ∧
    (r.mode = .mem8 → -128 ≤ signed16 r.disp ∧ signed16 r.disp ≤ 127)
  | .movIr r =>
    (r.width = .byte → r.lengthBytes = 2) ∧
    (r.width = .word → r.lengthBytes = 3) ∧
    (r.width = .byte → -128 ≤ signed16 r.imm ∧ signed16 r.imm ≤ 127)

/-! ## The syntax of an output line -/

/-- `register` (44_renderer.md R138). -/
def registerTexts : List Line :=
  ["al", "cl", "dl", "bl", "ah", "ch", "dh", "bh", "ax", "cx", "dx", "bx", "sp", "bp", "si", "di"].map String.toList

/-- `base` (44_renderer.md R138). -/
def baseTexts : List Line :=
  ["bx + si", "bx + di", "bp + si", "bp + di", "si", "di", "bp", "bx"].map String.toList

/-- The value of a decimal digit. -/
def digitValue (c : Char) : Option Nat :=
  if '0' ≤ c ∧ c ≤ '9' then some (c.toNat - '0'.toNat) else none

/-- The value of a string of digits, read from the left after `acc`. -/
def digitsValue : Nat → Line → Option Nat
  | acc, [] => some acc
  | acc, c :: cs => (digitValue c).bind fun d => digitsValue (10 * acc + d) cs

/-- `nonzero-digit {digit}`: its value. -/
def positiveValue : Line → Option Nat
  | [] => none
  | c :: cs => if c = '0' then none else digitsValue 0 (c :: cs)

/-- `number ::= "0" | ["-"] nonzero-digit {digit}`: its value (44_renderer.md R138). -/
def numberValue (t : Line) : Option Int :=
  if t = ['0'] then some 0
  else match t with
    | '-' :: cs => (positiveValue cs).map fun v : Nat => -(v : Int)
    | cs => (positiveValue cs).map fun v : Nat => (v : Int)

/-- `number`, with its value in -32768 .. 32767. -/
def isNumber (t : Line) : Prop := ∃ v, numberValue t = some v ∧ -32768 ≤ v ∧ v ≤ 32767

/-- `memory`: the number is never `0` here. -/
def isMemory (t : Line) : Prop :=
  (∃ b ∈ baseTexts, t = "[".toList ++ b ++ "]".toList) ∨
  (∃ b ∈ baseTexts, ∃ d, isNumber d ∧ d ≠ "0".toList ∧ t = "[".toList ++ b ++ " + ".toList ++ d ++ "]".toList)

/-- `line`: the destination first, an immediate only as the source, at most one memory operand
(44_renderer.md R138). -/
def isLine (t : Line) : Prop :=
  ∃ dst src, t = "mov ".toList ++ dst ++ ", ".toList ++ src ++ "\n".toList ∧
    ((dst ∈ registerTexts ∧ (src ∈ registerTexts ∨ isMemory src ∨ isNumber src)) ∨
     (isMemory dst ∧ src ∈ registerTexts))

/-! ## The invariant of a run -/

/-- `BUF` is in canonical form and lists no offset at or beyond `N`. -/
def bufOk (s : State) : Prop := s.buf.wf = true ∧ ∀ c ∈ s.buf, c.1 < s.n

/-- What the status register says agrees with the rest of the state: `DONE` only at the end
(45_stream_driver.md R152); `FAILED` with the position of the cursor, the first byte for `UnrecognizedOpcode` only,
never `FileUnavailable` (60_exceptions.md R161, R166, R170), and `InvalidField` only under `refuse` (R163). -/
def statusOk (s : State) : Prop :=
  match s.status with
  | .running => True
  | .done => s.pc = s.n
  | .failed kind info =>
    kind ≠ .fileUnavailable ∧ info = errorInfo s kind ∧ (kind = .invalidField → s.policy = .refuse)

/-- The invariant of a run: the buffer is canonical, the cursor is within it (45_stream_driver.md R152), the status
register is coherent, and every line written is a line of 44_renderer.md R138. -/
def runInv (s : State) : Prop :=
  bufOk s ∧ s.pc ≤ s.n ∧ statusOk s ∧ ∀ line ∈ s.out, isLine line

/-! ## The spec's pseudocode, byte by byte -/

/-- `v[hi:lo]` of a byte, as an unsigned number (00_scope.md R4, notation). -/
def slice (v : Byte) (hi lo : Nat) : Nat := v.toNat / 2 ^ lo % 2 ^ (hi - lo + 1)

/-- `MemRead(addr, 1)` (00_scope.md notation). -/
abbrev memRead1 (s : State) (a : Nat) : Byte := s.buf.read a

/-- `MemRead(addr, 2)`: `BUF[a] + 256 * BUF[a+1]` (20_memory.md R31). -/
def memRead2 (s : State) (a : Nat) : Word :=
  BitVec.ofNat 16 ((s.buf.read a).toNat + 256 * (s.buf.read (a + 1)).toNat)

/-- The body of `decode_rm` after its checks (42_mov_rm_reg.md R100). -/
def refRecordRm (s : State) (p : Nat) (b0 b1 : Byte) (mode : Mode) (len : Nat) : Record :=
  .movRm
    { direction := if slice b0 1 1 = 1 then .regIsDest else .regIsSource
      width := if slice b0 0 0 = 1 then .word else .byte
      mode := mode
      reg := BitVec.ofNat 3 (slice b1 5 3)
      rm := BitVec.ofNat 3 (slice b1 2 0)
      disp := match mode with
        | .reg => 0
        | .mem0 => 0
        | .mem8 => (memRead1 s (p + 2)).signExtend 16
        | .mem16 => memRead2 s (p + 2)
      lengthBytes := len }

/-- The mode that `b1[7:6]` selects (30_encoding.md R56). -/
def refMode (b1 : Byte) : Mode :=
  match slice b1 7 6 with
  | 0 => .mem0
  | 1 => .mem8
  | 2 => .mem16
  | _ => .reg

/-- `length_bytes` by `b1[7:6]` (42_mov_rm_reg.md R100). -/
def refLength (b1 : Byte) : Nat :=
  match slice b1 7 6 with
  | 3 => 2
  | 0 => 2
  | 1 => 3
  | _ => 4

/-- `decode_rm(BUF, N, p, b0)` (42_mov_rm_reg.md R100). -/
def refDecodeRm (s : State) (p : Nat) (b0 : Byte) : Except ErrorKind Record :=
  if s.n - p < 2 then .error .truncatedStream
  else
    let b1 := memRead1 s (p + 1)
    if s.policy = .refuse ∧ slice b1 7 6 = 0 ∧ slice b1 2 0 = 6 then .error .invalidField
    else if s.n - p < refLength b1 then .error .truncatedStream
    else .ok (refRecordRm s p b0 b1 (refMode b1) (refLength b1))

/-- `decode_ir(BUF, N, p, b0)` (43_mov_imm_reg.md R120). -/
def refDecodeIr (s : State) (p : Nat) (b0 : Byte) : Except ErrorKind Record :=
  let len := 2 + slice b0 3 3
  if s.n - p < len then .error .truncatedStream
  else .ok (.movIr
    { width := if slice b0 3 3 = 1 then .word else .byte
      reg := BitVec.ofNat 3 (slice b0 2 0)
      imm := if slice b0 3 3 = 0 then (memRead1 s (p + 1)).signExtend 16 else memRead2 s (p + 1)
      lengthBytes := len })

/-- `decode(BUF, N, p)` (41_opcode_parser.md R90). -/
def refDecode (s : State) (p : Nat) : Except ErrorKind Record :=
  if p ≥ s.n then .error .truncatedStream
  else
    let b0 := memRead1 s p
    if slice b0 7 2 = 0b100010 then refDecodeRm s p b0
    else if slice b0 7 4 = 0b1011 then refDecodeIr s p b0
    else .error .unrecognizedOpcode

/-! ## Runs -/

/-- The state after `k` steps that all answer a next state. -/
def runsTo (k : Nat) (s t : State) : Prop := Host.Core.run Sys2Proof.core k s = .next t

end Sys2Proof.Safety
end

