-- ==== Sys2Proof/Certificates/Slice0/Obligations.lean ====
section
/-! DEFINITION. The statements for the provers, each read from the numbered rules of spec/. Where a clause rests on a
decision of the spec (D<n>), on its general knowledge, or on the model's own choice, the docstring says so. -/

open Sys2Proof Sys2Proof.Machine Sys2Proof.Safety

/-! ## The ten forms: encoding, record, completion, errors -/

/-- `MOV.RM_R.REG` (42 R101): the encoding `1000100w 11rrrmmm` decodes to it under either policy; its record; with
two bytes remaining it appends the line of destination `REGNAME[w][rm]` and source `REGNAME[w][reg]` and advances by 2;
with fewer it raises `TruncatedStream`. Which names the ROM holds and how a line is spelled are other statements. -/
def Obligations.RmRRegForm : Prop :=
  ∀ (policy : DirectAddressPolicy) (w : Width) (reg rm : Selector) (rest : List Byte) (s : State),
    decodeBytes policy ((0b1000100#7 ++ w.bit : Byte) :: (0b11#2 ++ reg ++ rm : Byte) :: rest) =
      .ok (.movRmRReg w reg rm) ∧
    instrRecord (.movRmRReg w reg rm) =
      .movRm { direction := .regIsSource, width := w, mode := .reg, reg := reg, rm := rm, disp := 0, lengthBytes := 2 } ∧
    (s.status = .running → s.pc + 2 ≤ s.n →
      exec (.movRmRReg w reg rm) s =
        .next { s with out := s.out ++ [lineText (.reg (regName w rm)) (.reg (regName w reg))], pc := s.pc + 2 }) ∧
    (s.status = .running → s.n - s.pc < 2 →
      ∃ t info, exec (.movRmRReg w reg rm) s = .next t ∧ t.status = .failed .truncatedStream info)

/-- `MOV.RM_R.MEM0` (42 R102): `1000100w 00rrrmmm`. Rests on the number of the mode (D11, general knowledge,
log 6), for `rm` = 6 on `DIRECT_ADDRESS_POLICY` (D10; the policy is a field of the model, log 2), and for what an error
leaves on D18 (log 18). -/
def Obligations.RmRMem0Form : Prop :=
  ∀ (policy : DirectAddressPolicy) (w : Width) (reg rm : Selector) (rest : List Byte) (s : State),
    decodeBytes policy ((0b1000100#7 ++ w.bit : Byte) :: (0b00#2 ++ reg ++ rm : Byte) :: rest) =
      (if policy = .refuse ∧ rm = 6 then .error .invalidField else .ok (.movRmRMem0 w reg rm)) ∧
    instrRecord (.movRmRMem0 w reg rm) =
      .movRm { direction := .regIsSource, width := w, mode := .mem0, reg := reg, rm := rm, disp := 0, lengthBytes := 2 } ∧
    (s.status = .running → s.pc + 2 ≤ s.n → ¬(s.policy = .refuse ∧ rm = 6) →
      exec (.movRmRMem0 w reg rm) s =
        .next { s with out := s.out ++ [lineText (.mem (eaBase rm) 0) (.reg (regName w reg))], pc := s.pc + 2 }) ∧
    (s.status = .running → s.pc + 2 ≤ s.n → s.policy = .refuse → rm = 6 →
      ∃ info, exec (.movRmRMem0 w reg rm) s = .next { s with status := .failed .invalidField info }) ∧
    (s.status = .running → s.n - s.pc < 2 →
      ∃ info, exec (.movRmRMem0 w reg rm) s = .next { s with status := .failed .truncatedStream info })

/-- `MOV.RM_R.MEM8` (42 R103): `1000100w 01rrrmmm llllllll`, the displacement sign-extended. Rests on the number of
the mode (D11, general knowledge, log 6) and, for what an error leaves, on D18 (log 18). -/
def Obligations.RmRMem8Form : Prop :=
  ∀ (policy : DirectAddressPolicy) (w : Width) (reg rm : Selector) (lo : Byte) (rest : List Byte) (disp : Word)
    (s : State),
    decodeBytes policy ((0b1000100#7 ++ w.bit : Byte) :: (0b01#2 ++ reg ++ rm : Byte) :: lo :: rest) =
      .ok (.movRmRMem8 w reg rm (lo.signExtend 16)) ∧
    instrRecord (.movRmRMem8 w reg rm disp) =
      .movRm { direction := .regIsSource, width := w, mode := .mem8, reg := reg, rm := rm, disp := disp,
               lengthBytes := 3 } ∧
    (s.status = .running → s.pc + 3 ≤ s.n →
      exec (.movRmRMem8 w reg rm disp) s =
        .next { s with
          out := s.out ++ [lineText (.mem (eaBase rm) disp.toInt) (.reg (regName w reg))], pc := s.pc + 3 }) ∧
    (s.status = .running → s.n - s.pc < 3 →
      ∃ info, exec (.movRmRMem8 w reg rm disp) s = .next { s with status := .failed .truncatedStream info })

/-- `MOV.RM_R.MEM16` (42 R104): `1000100w 10rrrmmm llllllll hhhhhhhh`, low byte first. Rests on the number of the mode
(D11, log 6) and the byte order of the displacement (D13, log 7), both general knowledge, and, for what an error leaves,
on D18 (log 18). -/
def Obligations.RmRMem16Form : Prop :=
  ∀ (policy : DirectAddressPolicy) (w : Width) (reg rm : Selector) (lo hi : Byte) (rest : List Byte) (disp : Word)
    (s : State),
    decodeBytes policy ((0b1000100#7 ++ w.bit : Byte) :: (0b10#2 ++ reg ++ rm : Byte) :: lo :: hi :: rest) =
      .ok (.movRmRMem16 w reg rm (BitVec.ofNat 16 (lo.toNat + 256 * hi.toNat))) ∧
    instrRecord (.movRmRMem16 w reg rm disp) =
      .movRm { direction := .regIsSource, width := w, mode := .mem16, reg := reg, rm := rm, disp := disp,
               lengthBytes := 4 } ∧
    (s.status = .running → s.pc + 4 ≤ s.n →
      exec (.movRmRMem16 w reg rm disp) s =
        .next { s with
          out := s.out ++ [lineText (.mem (eaBase rm) disp.toInt) (.reg (regName w reg))], pc := s.pc + 4 }) ∧
    (s.status = .running → s.n - s.pc < 4 →
      ∃ info, exec (.movRmRMem16 w reg rm disp) s = .next { s with status := .failed .truncatedStream info })

/-- `MOV.R_RM.REG` (42 R105): `1000101w 11rrrmmm`, destination `REGNAME[w][reg]`, source `REGNAME[w][rm]`; as
`RmRRegForm` otherwise. -/
def Obligations.RRmRegForm : Prop :=
  ∀ (policy : DirectAddressPolicy) (w : Width) (reg rm : Selector) (rest : List Byte) (s : State),
    decodeBytes policy ((0b1000101#7 ++ w.bit : Byte) :: (0b11#2 ++ reg ++ rm : Byte) :: rest) =
      .ok (.movRRmReg w reg rm) ∧
    instrRecord (.movRRmReg w reg rm) =
      .movRm { direction := .regIsDest, width := w, mode := .reg, reg := reg, rm := rm, disp := 0, lengthBytes := 2 } ∧
    (s.status = .running → s.pc + 2 ≤ s.n →
      exec (.movRRmReg w reg rm) s =
        .next { s with out := s.out ++ [lineText (.reg (regName w reg)) (.reg (regName w rm))], pc := s.pc + 2 }) ∧
    (s.status = .running → s.n - s.pc < 2 →
      ∃ t info, exec (.movRRmReg w reg rm) s = .next t ∧ t.status = .failed .truncatedStream info)

/-- `MOV.R_RM.MEM0` (42 R106): `1000101w 00rrrmmm`. Rests on D11, D10 and D18, as `RmRMem0Form`. -/
def Obligations.RRmMem0Form : Prop :=
  ∀ (policy : DirectAddressPolicy) (w : Width) (reg rm : Selector) (rest : List Byte) (s : State),
    decodeBytes policy ((0b1000101#7 ++ w.bit : Byte) :: (0b00#2 ++ reg ++ rm : Byte) :: rest) =
      (if policy = .refuse ∧ rm = 6 then .error .invalidField else .ok (.movRRmMem0 w reg rm)) ∧
    instrRecord (.movRRmMem0 w reg rm) =
      .movRm { direction := .regIsDest, width := w, mode := .mem0, reg := reg, rm := rm, disp := 0, lengthBytes := 2 } ∧
    (s.status = .running → s.pc + 2 ≤ s.n → ¬(s.policy = .refuse ∧ rm = 6) →
      exec (.movRRmMem0 w reg rm) s =
        .next { s with out := s.out ++ [lineText (.reg (regName w reg)) (.mem (eaBase rm) 0)], pc := s.pc + 2 }) ∧
    (s.status = .running → s.pc + 2 ≤ s.n → s.policy = .refuse → rm = 6 →
      ∃ info, exec (.movRRmMem0 w reg rm) s = .next { s with status := .failed .invalidField info }) ∧
    (s.status = .running → s.n - s.pc < 2 →
      ∃ info, exec (.movRRmMem0 w reg rm) s = .next { s with status := .failed .truncatedStream info })

/-- `MOV.R_RM.MEM8` (42 R107): `1000101w 01rrrmmm llllllll`. Rests on D11 and D18, as `RmRMem8Form`. -/
def Obligations.RRmMem8Form : Prop :=
  ∀ (policy : DirectAddressPolicy) (w : Width) (reg rm : Selector) (lo : Byte) (rest : List Byte) (disp : Word)
    (s : State),
    decodeBytes policy ((0b1000101#7 ++ w.bit : Byte) :: (0b01#2 ++ reg ++ rm : Byte) :: lo :: rest) =
      .ok (.movRRmMem8 w reg rm (lo.signExtend 16)) ∧
    instrRecord (.movRRmMem8 w reg rm disp) =
      .movRm { direction := .regIsDest, width := w, mode := .mem8, reg := reg, rm := rm, disp := disp,
               lengthBytes := 3 } ∧
    (s.status = .running → s.pc + 3 ≤ s.n →
      exec (.movRRmMem8 w reg rm disp) s =
        .next { s with
          out := s.out ++ [lineText (.reg (regName w reg)) (.mem (eaBase rm) disp.toInt)], pc := s.pc + 3 }) ∧
    (s.status = .running → s.n - s.pc < 3 →
      ∃ info, exec (.movRRmMem8 w reg rm disp) s = .next { s with status := .failed .truncatedStream info })

/-- `MOV.R_RM.MEM16` (42 R108): `1000101w 10rrrmmm llllllll hhhhhhhh`. Rests on D11, D13 and D18, as
`RmRMem16Form`. -/
def Obligations.RRmMem16Form : Prop :=
  ∀ (policy : DirectAddressPolicy) (w : Width) (reg rm : Selector) (lo hi : Byte) (rest : List Byte) (disp : Word)
    (s : State),
    decodeBytes policy ((0b1000101#7 ++ w.bit : Byte) :: (0b10#2 ++ reg ++ rm : Byte) :: lo :: hi :: rest) =
      .ok (.movRRmMem16 w reg rm (BitVec.ofNat 16 (lo.toNat + 256 * hi.toNat))) ∧
    instrRecord (.movRRmMem16 w reg rm disp) =
      .movRm { direction := .regIsDest, width := w, mode := .mem16, reg := reg, rm := rm, disp := disp,
               lengthBytes := 4 } ∧
    (s.status = .running → s.pc + 4 ≤ s.n →
      exec (.movRRmMem16 w reg rm disp) s =
        .next { s with
          out := s.out ++ [lineText (.reg (regName w reg)) (.mem (eaBase rm) disp.toInt)], pc := s.pc + 4 }) ∧
    (s.status = .running → s.n - s.pc < 4 →
      ∃ info, exec (.movRRmMem16 w reg rm disp) s = .next { s with status := .failed .truncatedStream info })

/-- `MOV.R_IMM8` (43 R121): `10110rrr llllllll`, destination `REGNAME[0][reg]`, source the byte sign-extended; with fewer
than two bytes remaining it raises `TruncatedStream`. -/
def Obligations.RImm8Form : Prop :=
  ∀ (policy : DirectAddressPolicy) (reg : Selector) (lo : Byte) (rest : List Byte) (imm : Word) (s : State),
    decodeBytes policy ((0b10110#5 ++ reg : Byte) :: lo :: rest) = .ok (.movRImm8 reg (lo.signExtend 16)) ∧
    instrRecord (.movRImm8 reg imm) = .movIr { width := .byte, reg := reg, imm := imm, lengthBytes := 2 } ∧
    (s.status = .running → s.pc + 2 ≤ s.n →
      exec (.movRImm8 reg imm) s =
        .next { s with out := s.out ++ [lineText (.reg (regName .byte reg)) (.imm imm.toInt)], pc := s.pc + 2 }) ∧
    (s.status = .running → s.n - s.pc < 2 →
      ∃ t info, exec (.movRImm8 reg imm) s = .next t ∧ t.status = .failed .truncatedStream info)

/-- `MOV.R_IMM16` (43 R122): `10111rrr llllllll hhhhhhhh`, destination `REGNAME[1][reg]`, source the two bytes, low byte
first, read as signed; with fewer than three bytes remaining it raises `TruncatedStream`. -/
def Obligations.RImm16Form : Prop :=
  ∀ (policy : DirectAddressPolicy) (reg : Selector) (lo hi : Byte) (rest : List Byte) (imm : Word) (s : State),
    decodeBytes policy ((0b10111#5 ++ reg : Byte) :: lo :: hi :: rest) =
      .ok (.movRImm16 reg (BitVec.ofNat 16 (lo.toNat + 256 * hi.toNat))) ∧
    instrRecord (.movRImm16 reg imm) = .movIr { width := .word, reg := reg, imm := imm, lengthBytes := 3 } ∧
    (s.status = .running → s.pc + 3 ≤ s.n →
      exec (.movRImm16 reg imm) s =
        .next { s with out := s.out ++ [lineText (.reg (regName .word reg)) (.imm imm.toInt)], pc := s.pc + 3 }) ∧
    (s.status = .running → s.n - s.pc < 3 →
      ∃ t info, exec (.movRImm16 reg imm) s = .next t ∧ t.status = .failed .truncatedStream info)

/-! ## Frames -/

/-- Every form: whichever way it ends, the buffer, `N` and the policy stand, every offset reads as before; either it
ran (one line appended, the cursor past its bytes, still `RUNNING`) or it took an error (only `status` written). The
clause on what an error leaves rests on D18. -/
def Obligations.ExecFrame : Prop :=
  ∀ (i : Instr) (s t : State), exec i s = .next t →
    t.buf = s.buf ∧ t.n = s.n ∧ t.policy = s.policy ∧ (∀ a, bufRead t a = bufRead s a) ∧
    ((t.status = .running ∧ t.out = s.out ++ [render (instrRecord i)] ∧
        t.pc = s.pc + (instrRecord i).lengthBytes ∧ t.pc ≤ s.n) ∨
     (∃ kind info, t = { s with status := .failed kind info }))

/-- The block never writes memory (20 R37): no step changes a cell of `BUF`, nor `N`. -/
def Obligations.StepNeverWritesMemory : Prop :=
  ∀ s t : State, step s = .next t → t.buf = s.buf ∧ t.n = s.n ∧ ∀ a, bufRead t a = bufRead s a

/-- The cursor: a form that runs advances it by exactly its `length_bytes`, 2, 3 or 4, never past `N` (10 R13); ending the
run leaves it (45 R150, R152). That an error leaves it (60 R170) is D18, log 18. -/
def Obligations.CursorAdvancesByLength : Prop :=
  ∀ s t : State, step s = .next t →
    (∀ i, s.pc ≠ s.n → decodeAt s s.pc = .ok i →
      t.pc = s.pc + (instrRecord i).lengthBytes ∧ (instrRecord i).lengthBytes ∈ [2, 3, 4] ∧ t.pc ≤ s.n) ∧
    (∀ kind, s.pc ≠ s.n → decodeAt s s.pc = .error kind → t.pc = s.pc) ∧
    (s.pc = s.n → t.pc = s.pc)

/-- `OUT` is append-only (10 R15): exactly one line when an instruction decodes, none otherwise. Rests on D18 for
what stays after a failure. -/
def Obligations.OutputAppendsOneLine : Prop :=
  ∀ s t : State, step s = .next t →
    (∀ i, s.pc ≠ s.n → decodeAt s s.pc = .ok i → t.out = s.out ++ [render (instrRecord i)]) ∧
    (s.pc = s.n ∨ (∃ kind, decodeAt s s.pc = .error kind) → t.out = s.out)

/-! ## The step -/

/-- When the bytes at the cursor decode to an instruction, the step is `exec` of it at the same state: nothing stands
around it (45 R150). The decoded instruction is well formed. -/
def Obligations.StepRunsDecodedInstruction : Prop :=
  ∀ (s : State) (i : Instr), s.status = .running → s.pc ≠ s.n → decodeAt s s.pc = .ok i →
    i.wellFormed = true ∧ step s = exec i s

/-- The step relation of 45 R150, all its cases: not enabled unless `RUNNING`; `DONE` at `pc` = `N`; otherwise render,
emit and advance, or `FAILED` with the kind and the information the decode call raises (60 R166; the information is
D8). -/
def Obligations.StepRelation : Prop :=
  ∀ s : State,
    (s.status ≠ .running → ∀ t, step s ≠ .next t) ∧
    (s.status = .running → s.pc = s.n → step s = .next { s with status := .done }) ∧
    (∀ i, s.status = .running → s.pc ≠ s.n → decodeAt s s.pc = .ok i →
      step s = .next { s with
        out := s.out ++ [render (instrRecord i)], pc := s.pc + (instrRecord i).lengthBytes }) ∧
    (∀ kind, s.status = .running → s.pc ≠ s.n → decodeAt s s.pc = .error kind →
      step s = .next { s with
        status := .failed kind
          { position := s.pc, byte := if kind = .unrecognizedOpcode then some (s.buf.read s.pc) else none } })

/-- A run that is over stays over: the two faults name the stuck state, for the step and for every form. Which fault
names it is the model's choice (log 1); that nothing runs is 10 R14 and 60 R172. -/
def Obligations.TerminalStatusStops : Prop :=
  ∀ (s : State) (i : Instr),
    (s.status = .done → step s = .fault .runDone ∧ exec i s = .fault .runDone) ∧
    (∀ kind info, s.status = .failed kind info → step s = .fault .runFailed ∧ exec i s = .fault .runFailed)

/-- While `RUNNING` every step and every form answers a next state: no fault, no refusal (41 R96). -/
def Obligations.RunningNeverStops : Prop :=
  ∀ (s : State) (i : Instr), s.status = .running → (∃ t, step s = .next t) ∧ (∃ t, exec i s = .next t)

/-- Taking an error (60 R170, R166): only `status` is written, and the host then reads there the state 2, the code of
the error, the cursor's position, and for `UnrecognizedOpcode` the first byte. The codes are D7, the recorded
information D8, what stays D18. -/
def Obligations.ErrorWritesStatusOnly : Prop :=
  ∀ (s : State) (kind : ErrorKind), s.status = .running → s.pc ≠ s.n → decodeAt s s.pc = .error kind →
    ∃ t, step s = .next t ∧ t = { s with status := t.status } ∧
      statusState t.status = 2#2 ∧ statusKind t.status = errorCode kind ∧ statusPosition t = s.pc ∧
      (kind = .unrecognizedOpcode → statusByte t = s.buf.read s.pc)

/-! ## Which error, when -/

/-- 60 R162: `UnrecognizedOpcode` exactly when `p` < `N` and `BUF[p]` matches neither pattern; no line is emitted for
that position; 236 of the 256 byte values match neither. -/
def Obligations.UnrecognizedExactly : Prop :=
  (∀ (s : State) (p : Nat),
    (decodeAt s p = .error .unrecognizedOpcode ↔
      p < s.n ∧ (s.buf.read p).extractLsb' 2 6 ≠ 0b100010#6 ∧ (s.buf.read p).extractLsb' 4 4 ≠ 0b1011#4) ∧
    (s.pc ≠ s.n → decodeAt s s.pc = .error .unrecognizedOpcode → ∀ t, step s = .next t → t.out = s.out)) ∧
  ((List.range 256).filter fun v => (classify (BitVec.ofNat 8 v)).isNone).length = 236

/-- 30 R66: a first byte outside `88..8B` and `B0..BF` raises `UnrecognizedOpcode` whatever follows it and under
either policy, and no other first byte does (R66). At the cursor it fails the run, and no line is emitted (60 R162); that the cursor stays there (60 R170) is
D18, log 18. -/
def Obligations.UnrecognizedFirstByte : Prop :=
  (∀ (policy : DirectAddressPolicy) (b0 : Byte) (rest : List Byte),
    decodeBytes policy (b0 :: rest) = .error .unrecognizedOpcode ↔
      ¬(0x88 ≤ b0.toNat ∧ b0.toNat ≤ 0x8B) ∧ ¬(0xB0 ≤ b0.toNat ∧ b0.toNat ≤ 0xBF)) ∧
  (∀ s : State, s.status = .running → s.pc < s.n →
    ¬(0x88 ≤ (s.buf.read s.pc).toNat ∧ (s.buf.read s.pc).toNat ≤ 0x8B) →
    ¬(0xB0 ≤ (s.buf.read s.pc).toNat ∧ (s.buf.read s.pc).toNat ≤ 0xBF) →
    ∃ t info, step s = .next t ∧ t.status = .failed .unrecognizedOpcode info ∧ t.pc = s.pc ∧ t.out = s.out)

/-- Exactly when `TruncatedStream` is raised (60 R164). The cases in which fewer than two bytes remain rest on D5 (log 12),
the numbers of the modes on D11 (log 6). -/
def Obligations.TruncatedExactly : Prop :=
  ∀ (s : State) (p : Nat),
    decodeAt s p = .error .truncatedStream ↔
      s.n ≤ p ∨
      (p < s.n ∧ 0x88 ≤ (s.buf.read p).toNat ∧ (s.buf.read p).toNat ≤ 0x8B ∧
        (s.n - p < 2 ∨
         ((s.buf.read (p + 1)).extractLsb' 6 2 = 0b01#2 ∧ s.n - p < 3) ∨
         ((s.buf.read (p + 1)).extractLsb' 6 2 = 0b10#2 ∧ s.n - p < 4))) ∨
      (p < s.n ∧ 0xB0 ≤ (s.buf.read p).toNat ∧ (s.buf.read p).toNat ≤ 0xB7 ∧ s.n - p < 2) ∨
      (p < s.n ∧ 0xB8 ≤ (s.buf.read p).toNat ∧ (s.buf.read p).toNat ≤ 0xBF ∧ s.n - p < 3)

/-- 60 R163: `InvalidField` is raised exactly under `refuse`, for a register/memory first byte whose mode byte has mode
00 and `rm` = 6; never under the default policy. Rests on D10. -/
def Obligations.InvalidFieldExactly : Prop :=
  ∀ (s : State) (p : Nat),
    decodeAt s p = .error .invalidField ↔
      s.policy = .refuse ∧ p + 2 ≤ s.n ∧ 0x88 ≤ (s.buf.read p).toNat ∧ (s.buf.read p).toNat ≤ 0x8B ∧
        s.buf.read (p + 1) &&& 0xC7#8 = 0x06#8

/-- `FileUnavailable` is the host's error: no decode call raises it (60 R161). -/
def Obligations.DecodeNeverRaisesFileUnavailable : Prop :=
  ∀ (policy : DirectAddressPolicy) (bytes : List Byte), decodeBytes policy bytes ≠ .error .fileUnavailable

/-! ## The decoder -/

/-- The window decoder is the spec's pseudocode: `decode`, `decode_rm` and `decode_ir` read byte by byte under their
bounds checks (41 R90, 42 R100, 43 R120) give the same record or the same error at every position of every buffer,
under either policy. Rests on D5, D6, D10, D11, D13 where the pseudocode does. -/
def Obligations.DecoderRefinesPseudocode : Prop :=
  ∀ (s : State) (p : Nat), (decodeAt s p).map instrRecord = refDecode s p

/-- Window property (20 R46): a decode call depends on the policy, on min(N - p, 4) and on that many bytes, and on
nothing else of the state: not the position, the cursor, the status, nor what was decoded before (10 R21). -/
def Obligations.DecodeDependsOnWindowOnly : Prop :=
  ∀ (s t : State) (p q : Nat), s.policy = t.policy → min (s.n - p) 4 = min (t.n - q) 4 →
    (∀ k, k < min (s.n - p) 4 → s.buf.read (p + k) = t.buf.read (q + k)) →
    decodeAt s p = decodeAt t q

/-- No byte past the instruction's own influences its decoding (20 R34): what follows can be replaced. -/
def Obligations.DecodeReadsOwnBytesOnly : Prop :=
  ∀ (policy : DirectAddressPolicy) (bytes rest : List Byte) (i : Instr), decodeBytes policy bytes = .ok i →
    (instrRecord i).lengthBytes ≤ bytes.length ∧
    decodeBytes policy (bytes.take (instrRecord i).lengthBytes ++ rest) = .ok i

/-- The record invariants (10 R20): every decoded instruction is well formed; its record satisfies (b) the R/M operand is
a register exactly in mode 11 and a memory form otherwise, (c) with the lengths 2, 2, 3, 4 and 2, 3 of R18's table, (d),
and the signed ranges of a sign-extended byte; and (e) its bytes lie within the buffer. The numbers of the memory modes
are D11 (log 6), the R/M operand as the memory operand D15 (log 19). -/
def Obligations.DecodedRecordIsValid : Prop :=
  ∀ (s : State) (p : Nat) (i : Instr), decodeAt s p = .ok i →
    i.wellFormed = true ∧ recordValid (instrRecord i) ∧ p + (instrRecord i).lengthBytes ≤ s.n

/-- The length is a function of the first two bytes (30 R62, 41 R95). -/
def Obligations.LengthIsAFunctionOfHead : Prop :=
  ∀ (policy : DirectAddressPolicy) (b0 b1 : Byte) (rest : List Byte) (i : Instr),
    decodeBytes policy (b0 :: b1 :: rest) = .ok i →
    (instrRecord i).lengthBytes =
      if b0.extractLsb' 2 6 = 0b100010#6 then
        (if b1.extractLsb' 6 2 = 0b01#2 then 3 else if b1.extractLsb' 6 2 = 0b10#2 then 4 else 2)
      else 2 + (b0.extractLsb' 3 1).toNat

/-- Decode of encode: for every well-formed instruction and whatever follows it, under either policy (the
direct-address form under `refuse` excepted, which the next clause covers). -/
def Obligations.DecodeOfEncode : Prop :=
  ∀ (policy : DirectAddressPolicy) (i : Instr) (rest : List Byte), i.wellFormed = true →
    (¬(policy = .refuse ∧ i.isDirectAddress = true) → decodeBytes policy (encode i ++ rest) = .ok i) ∧
    (policy = .refuse ∧ i.isDirectAddress = true → decodeBytes policy (encode i ++ rest) = .error .invalidField)

/-- Encode of decode: the bytes of a decoded instruction are exactly its encoding, so no two encodings share an
instruction: redundant encodings keep their own records (30 R71). -/
def Obligations.EncodeOfDecode : Prop :=
  ∀ (policy : DirectAddressPolicy) (bytes : List Byte) (i : Instr), decodeBytes policy bytes = .ok i →
    encode i = bytes.take (instrRecord i).lengthBytes ∧ (encode i).length = (instrRecord i).lengthBytes

/-- Words written out from the spec's encodings, one for each form (42 R101 to R108 and 43 R121, R122, their worked
examples). A sanity statement. -/
def Obligations.SpecWordsDecode : Prop :=
  decodeBytes .asDocumented [0x88, 0xE8] = .ok (.movRmRReg .byte 5 0) ∧
  decodeBytes .asDocumented [0x89, 0x0C] = .ok (.movRmRMem0 .word 1 4) ∧
  decodeBytes .asDocumented [0x89, 0x57, 0xFB] = .ok (.movRmRMem8 .word 2 7 0xFFFB) ∧
  decodeBytes .asDocumented [0x89, 0x9C, 0x00, 0x01] = .ok (.movRmRMem16 .word 3 4 0x0100) ∧
  decodeBytes .asDocumented [0x8A, 0xE8] = .ok (.movRRmReg .byte 5 0) ∧
  decodeBytes .asDocumented [0x8B, 0x07] = .ok (.movRRmMem0 .word 0 7) ∧
  decodeBytes .asDocumented [0x8B, 0x47, 0x04] = .ok (.movRRmMem8 .word 0 7 4) ∧
  decodeBytes .asDocumented [0x8A, 0x80, 0xFE, 0xFF] = .ok (.movRRmMem16 .byte 0 0 0xFFFE) ∧
  decodeBytes .asDocumented [0xB0, 0xFF] = .ok (.movRImm8 0 0xFFFF) ∧
  decodeBytes .asDocumented [0xB8, 0x34, 0x12] = .ok (.movRImm16 0 0x1234)

/-- The number the table gives an instruction, placed at the cursor, is what the next step runs (log 14). A sanity
statement about the model's own interface to the table. -/
def Obligations.FetchWordRunsTableInstruction : Prop :=
  ∀ (s : State) (nbits w : Nat) (i : Instr), s.buf.wf = true → s.policy = Config.defaultPolicy →
    decodeTableWord nbits w = some i →
    step (s.withFetchWord nbits w) = exec i (s.withFetchWord nbits w)

/-! ## The Renderer -/

/-- Every line the block can emit is a line of the syntax of 44 R138. The base names are general knowledge (D12), the
number text D16 and D17, the line feed D28. -/
def Obligations.RenderedLineIsInTheGrammar : Prop :=
  ∀ i : Instr, isLine (render (instrRecord i))

/-- The line format (44 R131, R136): `mov`, one space, the destination, comma and space, the source, a line feed (D28);
a register operand prints its name, an immediate its signed decimal value, zero included. -/
def Obligations.LineFormat : Prop :=
  ∀ (r : Record) (name : RegName) (v : Int),
    render r = "mov ".toList ++ operandText (operands r).1 ++ ", ".toList ++ operandText (operands r).2 ++ "\n".toList ∧
    operandText (.reg name) ∈ registerTexts ∧ operandText (.imm v) = decText v

/-- `dec(v)` reads back as `v` on its whole domain, without leading zeros or a plus sign (44 R137; D17). -/
def Obligations.DecimalTextReadsBack : Prop :=
  ∀ v : Int, -32768 ≤ v → v ≤ 32767 → numberValue (decText v) = some v

/-- The 256 register-direct encodings (44 R140): decode then render prints the two names of the ROM for the width,
REG first when bit 1 of the first byte is 1 and R/M first when it is 0. The ROM order rests on D27. -/
def Obligations.RegisterDirectText : Prop :=
  ∀ (policy : DirectAddressPolicy) (d w : Bool) (reg rm : Fin 8) (rest : List Byte),
    let b0 : Byte := BitVec.ofNat 8 (0x88 + 2 * d.toNat + w.toNat)
    let b1 : Byte := BitVec.ofNat 8 (0xC0 + 8 * reg.val + rm.val)
    let regText := registerTexts.getD (8 * w.toNat + reg.val) []
    let rmText := registerTexts.getD (8 * w.toNat + rm.val) []
    (decodeBytes policy (b0 :: b1 :: rest)).map (fun i => render (instrRecord i)) =
      .ok (if d then "mov ".toList ++ regText ++ ", ".toList ++ rmText ++ "\n".toList
           else "mov ".toList ++ rmText ++ ", ".toList ++ regText ++ "\n".toList)

/-- The text of a memory operand (44 R134, R135): brackets, the base of `EANAME` (D12, general knowledge), and space,
plus, space and the decimal value exactly when it is not zero (D16). -/
def Obligations.MemoryOperandText : Prop :=
  ∀ (rm : Selector) (disp : Int),
    operandText (.mem (eaBase rm) disp) =
      "[".toList ++ baseTexts.getD rm.toNat [] ++
        (if disp = 0 then [] else " + ".toList ++ decText disp) ++ "]".toList

/-- A line determines its two operands (44 R132 to R136), so any two encodings printed alike name the same operands;
it does not determine the encoding (44 R135, 30 R71). -/
def Obligations.LineDeterminesOperands : Prop :=
  ∀ i j : Instr, render (instrRecord i) = render (instrRecord j) → operands (instrRecord i) = operands (instrRecord j)

/-- Operand roles (42 R109): for either direction, the memory operand of a register/memory record is the R/M operand,
present exactly when `mode` is not 11, and the direction bit only exchanges destination and source (D15). -/
def Obligations.MemoryOperandIgnoresDirection : Prop :=
  ∀ (mode : Mode) (w : Width) (reg rm : Selector) (disp : Word),
    operands (rmRecord .regIsDest mode w reg rm disp) = (operands (rmRecord .regIsSource mode w reg rm disp)).swap ∧
    (operands (rmRecord .regIsDest mode w reg rm disp)).1 = .reg (regName w reg) ∧
    ((operands (rmRecord .regIsDest mode w reg rm disp)).2 =
      if mode = .reg then .reg (regName w rm) else .mem (eaBase rm) disp.toInt)

/-! ## Invariants -/

/-- The invariant of a run holds right after reset, and the reset state is a fresh run: `pc` 0, `RUNNING`, `OUT` empty
(D4, D20). That nothing is loaded is the model's choice (log 4). -/
def Obligations.RunInvariantAtReset : Prop := runInv State.reset ∧ resetRun State.reset = State.reset

/-- It holds at the start of a run on any input, under either policy, and loading puts byte `i` of the input at offset
`i` with `N` the number of bytes (70 R192); with no input the host reports `FileUnavailable` (60 R161). -/
def Obligations.LaunchLoadsTheInput : Prop :=
  ∀ (policy : DirectAddressPolicy) (input : List Byte),
    (∃ s, launch policy (some input) = .ok s ∧ runInv s ∧ s.n = input.length ∧ (∀ a, bufRead s a = input[a]?) ∧
      s.pc = 0 ∧ s.status = .running ∧ s.out = [] ∧ s.policy = policy) ∧
    launch policy none = .error .fileUnavailable

/-- Every step keeps the invariant of a run, from every state that meets it: the buffer stays canonical, the cursor
within the buffer, the status register coherent, every emitted line a line of the syntax. -/
def Obligations.StepKeepsRunInvariant : Prop :=
  ∀ s t : State, runInv s → step s = .next t → runInv t

/-- Reset (70 R190, 10 R26): `pc` 0, `RUNNING`, `OUT` empty, the buffer kept; from any state that meets the invariant it
gives one that meets it. The values are D4 and D20. -/
def Obligations.ResetStartsANewRun : Prop :=
  ∀ s : State,
    (resetRun s).pc = 0 ∧ (resetRun s).status = .running ∧ (resetRun s).out = [] ∧
    (resetRun s).buf = s.buf ∧ (resetRun s).n = s.n ∧ (resetRun s).policy = s.policy ∧
    (runInv s → runInv (resetRun s))

/-- The status register's encoding (10 R14 field table, 60 R160; D7 and D19, logs 12 and 11). Bits 1:0 are 0 for
`RUNNING`, 1 for `DONE`, 2 for `FAILED`, never 3; bits 4:2 are 0 unless `FAILED`, and then 1 to 4 by the kind. The exit
code is 0 exactly on `DONE`, nonzero on every failure, `FileUnavailable` included, none while `RUNNING` (60 R167; its
nonzero value is free, D9, log 13). -/
def Obligations.StatusEncodingAndExitCode : Prop :=
  (statusBits .running = 0b000_00#5 ∧ statusBits .done = 0b000_01#5) ∧
  (errorCode .fileUnavailable = 1#3 ∧ errorCode .unrecognizedOpcode = 2#3 ∧ errorCode .invalidField = 3#3 ∧
    errorCode .truncatedStream = 4#3) ∧
  (∀ info,
    statusBits (.failed .unrecognizedOpcode info) = 0b010_10#5 ∧
    statusBits (.failed .invalidField info) = 0b011_10#5 ∧
    statusBits (.failed .truncatedStream info) = 0b100_10#5) ∧
  (∀ st : Status,
    (statusBits st).extractLsb' 0 2 ≠ 3#2 ∧
    ((statusBits st).extractLsb' 0 2 ≠ 2#2 → (statusBits st).extractLsb' 2 3 = 0#3) ∧
    (∀ kind info, st = .failed kind info →
      (statusBits st).extractLsb' 0 2 = 2#2 ∧ (statusBits st).extractLsb' 2 3 = errorCode kind) ∧
    (exitCode st = some 0 ↔ st = .done) ∧ (exitCode st = none ↔ st = .running)) ∧
  (∀ kind : ErrorKind, exitCodeOf kind ≠ 0)

/-! ## Runs -/

/-- Every run terminates (45 R158): from every `RUNNING` state, at most floor((N - pc) / 2) + 1 steps reach `DONE` or
`FAILED`. -/
def Obligations.EveryRunTerminates : Prop :=
  ∀ s : State, s.status = .running →
    ∃ k t, k ≤ (s.n - s.pc) / 2 + 1 ∧ runsTo k s t ∧ t.status ≠ .running

/-- Length accounting (41 R95, 45 R152): from a `RUNNING` state whose bytes from the cursor to `N` are encodings of
well-formed instructions laid end to end (no direct-address form under `refuse`), one step an instruction and one more
end the run `DONE`, the cursor at `N`, one line an instruction appended in order. -/
def Obligations.EncodingsRunToDone : Prop :=
  ∀ (is : List Instr) (s : State), s.status = .running →
    (∀ i ∈ is, i.wellFormed = true ∧ ¬(s.policy = .refuse ∧ i.isDirectAddress = true)) →
    s.n = s.pc + (is.flatMap encode).length →
    (∀ k, k < (is.flatMap encode).length → (is.flatMap encode)[k]? = some (s.buf.read (s.pc + k))) →
    runsTo (is.length + 1) s
      { s with pc := s.n, status := .done, out := s.out ++ is.map fun i => render (instrRecord i) }

/-- Conversely, a run that ends `DONE` read nothing but encodings laid end to end from where it stood to `N`, and
appended exactly their lines. -/
def Obligations.DoneMeansEncodings : Prop :=
  ∀ (k : Nat) (s t : State), s.status = .running → runsTo k s t → t.status = .done →
    t.pc = s.n ∧ ∃ is : List Instr,
      s.n = s.pc + (is.flatMap encode).length ∧
      (∀ j, j < (is.flatMap encode).length → (is.flatMap encode)[j]? = some (s.buf.read (s.pc + j))) ∧
      (∀ i ∈ is, i.wellFormed = true) ∧
      t.out = s.out ++ is.map fun i => render (instrRecord i)

/-- Errors are precise and final (60 R171, R172): a run that ends `FAILED` stands at the position whose decode call
raised that error, and the lines it appended are those of the instructions before it. -/
def Obligations.FailedRunIsPrecise : Prop :=
  ∀ (k : Nat) (s t : State) (kind : ErrorKind) (info : Info), s.status = .running → runsTo k s t →
    t.status = .failed kind info →
    decodeAt s t.pc = .error kind ∧ info.position = t.pc ∧ t.pc ≠ s.n ∧ ∃ is : List Instr,
      t.pc = s.pc + (is.flatMap encode).length ∧
      (∀ i ∈ is, i.wellFormed = true) ∧
      (∀ j, j < (is.flatMap encode).length → (is.flatMap encode)[j]? = some (s.buf.read (s.pc + j))) ∧
      t.out = s.out ++ is.map fun i => render (instrRecord i)
end

