-- ==== Sys2Proof/Laws/Decode.lean ====
section
/-! SUPPORT. The decoder's bit fields and words, and what its two paths can answer. -/

namespace Sys2Proof

open Sys2Proof.Machine

/-! ## Words -/

theorem sext16_eq_signExtend (b : Byte) : sext16 b = b.signExtend 16 := by
  revert b; decide

theorem lowByte_sext16 (b : Byte) : lowByte (sext16 b) = b := by
  revert b; decide

theorem signed16_sext16_range (b : Byte) : -128 ≤ signed16 (sext16 b) ∧ signed16 (sext16 b) ≤ 127 := by
  revert b; decide

theorem fitsByte_sext16 (b : Byte) : fitsByte (sext16 b) = true := by
  simp [fitsByte, lowByte_sext16]

theorem le16_toNat (lo hi : Byte) : (le16 lo hi).toNat = lo.toNat + 256 * hi.toNat := by
  have h := lo.isLt
  simp only [le16, BitVec.toNat_append, Nat.shiftLeft_eq]
  rw [Nat.mul_comm, ← Nat.two_pow_add_eq_or_of_lt h]
  omega

theorem le16_low_high (v : Word) : le16 (lowByte v) (highByte v) = v := by
  apply BitVec.eq_of_toNat_eq
  rw [le16_toNat]
  simp only [lowByte, highByte, BitVec.extractLsb'_toNat, Nat.shiftRight_eq_div_pow]
  have := v.isLt
  omega

theorem lowByte_le16 (lo hi : Byte) : lowByte (le16 lo hi) = lo := by
  apply BitVec.eq_of_toNat_eq
  simp only [lowByte, BitVec.extractLsb'_toNat, le16_toNat, Nat.shiftRight_eq_div_pow]
  have := lo.isLt
  omega

theorem highByte_le16 (lo hi : Byte) : highByte (le16 lo hi) = hi := by
  apply BitVec.eq_of_toNat_eq
  simp only [highByte, BitVec.extractLsb'_toNat, le16_toNat, Nat.shiftRight_eq_div_pow]
  have := lo.isLt
  have := hi.isLt
  omega

theorem signed16_eq_toInt (v : Word) : signed16 v = v.toInt := by
  unfold signed16
  rw [BitVec.toInt_eq_toNat_cond]
  have := v.isLt
  split <;> split <;> omega

theorem signed16_range (v : Word) : -32768 ≤ signed16 v ∧ signed16 v ≤ 32767 := by
  unfold signed16
  have := v.isLt
  split <;> omega

/-! ## The first byte and the mode byte -/

/-- Classification as the two fixed patterns (30_encoding.md R52, R53). -/
theorem classify_eq (b0 : Byte) :
    classify b0 = if b0.extractLsb' 2 6 = 0b100010#6 then some .movRm
      else if b0.extractLsb' 4 4 = 0b1011#4 then some .movIr else none := by
  revert b0; decide

theorem classify_rmFirstByte (d : Direction) (w : Width) : classify (rmFirstByte d w) = some .movRm := by
  cases d <;> cases w <;> decide

theorem rmDirection_rmFirstByte (d : Direction) (w : Width) : rmDirection (rmFirstByte d w) = d := by
  cases d <;> cases w <;> decide

theorem rmWidth_rmFirstByte (d : Direction) (w : Width) : rmWidth (rmFirstByte d w) = w := by
  cases d <;> cases w <;> decide

theorem classify_irFirstByte (w : Width) (reg : Selector) : classify (irFirstByte w reg) = some .movIr := by
  cases w <;> revert reg <;> decide

theorem irWidth_irFirstByte (w : Width) (reg : Selector) : irWidth (irFirstByte w reg) = w := by
  cases w <;> revert reg <;> decide

theorem irReg_irFirstByte (w : Width) (reg : Selector) : irReg (irFirstByte w reg) = reg := by
  cases w <;> revert reg <;> decide

theorem modeField_modeByte (m : Mode) (reg rm : Selector) : modeField (modeByte m reg rm) = m := by
  cases m <;> revert reg rm <;> decide

theorem regField_modeByte (m : Mode) (reg rm : Selector) : regField (modeByte m reg rm) = reg := by
  cases m <;> revert reg rm <;> decide

theorem rmField_modeByte (m : Mode) (reg rm : Selector) : rmField (modeByte m reg rm) = rm := by
  cases m <;> revert reg rm <;> decide

/-- A register/memory first byte is the one its fields encode to. -/
theorem rmFirstByte_fields (b0 : Byte) (h : classify b0 = some .movRm) :
    rmFirstByte (rmDirection b0) (rmWidth b0) = b0 := by
  revert b0; decide

/-- An immediate first byte is the one its fields encode to. -/
theorem irFirstByte_fields (b0 : Byte) (h : classify b0 = some .movIr) :
    irFirstByte (irWidth b0) (irReg b0) = b0 := by
  revert b0; decide

/-- The three fields tile the mode byte (30_encoding.md R55). -/
theorem modeByte_fields (b1 : Byte) : modeByte (modeField b1) (regField b1) (rmField b1) = b1 := by
  revert b1; decide

/-! ## What the paths can answer -/

/-- A displacement comes from exactly the bytes the mode needs. -/
theorem displacement_cases {mode : Mode} {rest : List Byte} {disp : Word} (h : displacement mode rest = some disp) :
    (mode = .reg ∧ disp = 0) ∨ (mode = .mem0 ∧ disp = 0) ∨
    (mode = .mem8 ∧ ∃ lo tail, rest = lo :: tail ∧ disp = sext16 lo) ∨
    (mode = .mem16 ∧ ∃ lo hi tail, rest = lo :: hi :: tail ∧ disp = le16 lo hi) := by
  unfold displacement at h
  split at h <;> simp_all

/-- A displacement is missing exactly when fewer bytes remain than the mode needs. -/
theorem displacement_none {mode : Mode} {rest : List Byte} :
    displacement mode rest = none ↔ rest.length + 2 < rmLength mode := by
  unfold displacement
  split <;> simp [rmLength]

/-- An immediate comes from exactly the bytes the width needs. -/
theorem immediate_cases {w : Width} {rest : List Byte} {imm : Word} (h : immediate w rest = some imm) :
    (w = .byte ∧ ∃ lo tail, rest = lo :: tail ∧ imm = sext16 lo) ∨
    (w = .word ∧ ∃ lo hi tail, rest = lo :: hi :: tail ∧ imm = le16 lo hi) := by
  unfold immediate at h
  split at h <;> simp_all

/-- An immediate is missing exactly when fewer bytes remain than the width needs. -/
theorem immediate_none {w : Width} {rest : List Byte} :
    immediate w rest = none ↔ rest.length + 1 < irLength w := by
  unfold immediate
  split <;> simp [irLength]

theorem instrRecord_rmInstr (d : Direction) (mode : Mode) (w : Width) (reg rm : Selector) (disp : Word) :
    instrRecord (rmInstr d mode w reg rm disp) =
      rmRecord d mode w reg rm (match mode with | .reg => 0 | .mem0 => 0 | .mem8 => disp | .mem16 => disp) := by
  cases d <;> cases mode <;> rfl

theorem instrRecord_irInstr (w : Width) (reg : Selector) (imm : Word) :
    instrRecord (irInstr w reg imm) = irRecord w reg imm := by
  cases w <;> rfl

/-- Everything a successful decode says. -/
theorem decodeBytes_ok {policy : DirectAddressPolicy} {bytes : List Byte} {i : Instr}
    (h : decodeBytes policy bytes = .ok i) :
    (∃ b0 b1 rest disp, bytes = b0 :: b1 :: rest ∧ classify b0 = some .movRm ∧
      ¬(policy = .refuse ∧ Sys2Proof.isDirectAddress (modeField b1) (rmField b1) = true) ∧
      displacement (modeField b1) rest = some disp ∧
      i = rmInstr (rmDirection b0) (modeField b1) (rmWidth b0) (regField b1) (rmField b1) disp) ∨
    (∃ b0 rest imm, bytes = b0 :: rest ∧ classify b0 = some .movIr ∧
      immediate (irWidth b0) rest = some imm ∧ i = irInstr (irWidth b0) (irReg b0) imm) := by
  cases bytes with
  | nil => cases h
  | cons b0 rest =>
    simp only [decodeBytes] at h
    split at h
    · rename_i hc
      cases rest with
      | nil => cases h
      | cons b1 rest =>
        simp only [decodeRm] at h
        split at h
        · cases h
        · rename_i hp
          split at h
          · cases h
          · rename_i disp hd
            refine .inl ⟨b0, b1, rest, disp, rfl, hc, by simpa using hp, hd, ?_⟩
            exact (Except.ok.inj h).symm
    · rename_i hc
      simp only [decodeIr] at h
      split at h
      · cases h
      · rename_i imm hi
        exact .inr ⟨b0, rest, imm, rfl, hc, hi, (Except.ok.inj h).symm⟩
    · cases h

end Sys2Proof
end

