-- ==== Sys2Proof/Laws/Memory.lean ====
section
/-! SUPPORT. The buffer's canonical form is kept by every write, and reads see the last write. -/

namespace Sys2Proof.Machine

theorem wfFrom_cons {lo k : Nat} {b : Byte} {m : Memory} :
    Memory.wfFrom lo ((k, b) :: m) = true ↔ lo ≤ k ∧ b ≠ unlistedByte ∧ Memory.wfFrom (k + 1) m = true := by
  simp [Memory.wfFrom, and_assoc]

theorem wfFrom_mono {lo lo' : Nat} {m : Memory} (hlo : lo' ≤ lo) (h : Memory.wfFrom lo m = true) :
    Memory.wfFrom lo' m = true := by
  cases m with
  | nil => rfl
  | cons c m =>
    obtain ⟨h1, h2, h3⟩ := wfFrom_cons.1 h
    exact wfFrom_cons.2 ⟨by omega, h2, h3⟩

/-- An offset below every listed one reads as `unlistedByte`. -/
theorem read_below {lo a : Nat} {m : Memory} (h : Memory.wfFrom lo m = true) (ha : a < lo) :
    m.read a = unlistedByte := by
  induction m generalizing lo with
  | nil => rfl
  | cons c m ih =>
    obtain ⟨h1, -, h3⟩ := wfFrom_cons.1 h
    have hne : c.1 ≠ a := by omega
    simp [Memory.read, hne, ih h3 (by omega)]

theorem wfFrom_write {lo a : Nat} {m : Memory} (v : Byte) (h : Memory.wfFrom lo m = true) (ha : lo ≤ a) :
    Memory.wfFrom lo (m.write a v) = true := by
  induction m generalizing lo with
  | nil =>
    unfold Memory.write
    split
    · rfl
    · exact wfFrom_cons.2 ⟨ha, ‹_›, rfl⟩
  | cons c m ih =>
    obtain ⟨h1, h2, h3⟩ := wfFrom_cons.1 h
    unfold Memory.write
    split
    · split
      · exact h
      · exact wfFrom_cons.2 ⟨ha, ‹_›, wfFrom_cons.2 ⟨by omega, h2, h3⟩⟩
    · split
      · split
        · exact wfFrom_mono (by omega) h3
        · subst_vars; exact wfFrom_cons.2 ⟨h1, ‹_›, h3⟩
      · exact wfFrom_cons.2 ⟨h1, h2, ih h3 (by omega)⟩

/-- A write keeps the canonical form. -/
theorem wf_write {m : Memory} (a : Nat) (v : Byte) (h : m.wf = true) : (m.write a v).wf = true :=
  wfFrom_write v h (Nat.zero_le a)

theorem wf_writeBytes {m : Memory} (a : Nat) (vs : List Byte) (h : m.wf = true) :
    (m.writeBytes a vs).wf = true := by
  induction vs generalizing m a with
  | nil => exact h
  | cons v vs ih => exact ih (a + 1) (wf_write a v h)

/-- Reset memory has the canonical form. -/
theorem wf_nil : Memory.wf [] = true := rfl

theorem read_write_same_from {lo a : Nat} {m : Memory} (v : Byte) (h : Memory.wfFrom lo m = true) :
    (m.write a v).read a = v := by
  induction m generalizing lo with
  | nil =>
    by_cases hv : v = unlistedByte <;> simp [Memory.write, Memory.read, hv]
  | cons c m ih =>
    obtain ⟨h1, h2, h3⟩ := wfFrom_cons.1 h
    unfold Memory.write
    split
    · split
      · have hne : c.1 ≠ a := by omega
        subst_vars
        simp [Memory.read, hne, read_below h3 (by omega : a < c.1 + 1)]
      · simp [Memory.read]
    · split
      · split
        · subst_vars; exact read_below h3 (by omega)
        · simp [Memory.read]
      · have hne : c.1 ≠ a := by omega
        simp [Memory.read, hne, ih h3]

/-- A read after a write to the same offset gives the byte written. -/
theorem read_write_same {m : Memory} (a : Nat) (v : Byte) (h : m.wf = true) : (m.write a v).read a = v :=
  read_write_same_from v h

/-- A write leaves every other offset alone. -/
theorem read_write_other {m : Memory} {a b : Nat} (v : Byte) (hab : b ≠ a) : (m.write a v).read b = m.read b := by
  induction m with
  | nil =>
    unfold Memory.write
    split <;> simp [Memory.read, hab.symm]
  | cons c m ih =>
    unfold Memory.write
    split
    · split <;> simp [Memory.read, hab.symm]
    · split
      · have hne : c.1 ≠ b := by omega
        split <;> simp [Memory.read, hab.symm, hne]
      · simp [Memory.read, ih]

/-- Reading after a write of several bytes: those bytes at their offsets, everything else as before. -/
theorem read_writeBytes {m : Memory} (a : Nat) (vs : List Byte) (b : Nat) (h : m.wf = true) :
    (m.writeBytes a vs).read b =
      if a ≤ b ∧ b < a + vs.length then vs.getD (b - a) unlistedByte else m.read b := by
  induction vs generalizing m a with
  | nil => simp [Memory.writeBytes]
  | cons v vs ih =>
    rw [Memory.writeBytes, ih (a + 1) (wf_write a v h)]
    rcases Nat.lt_trichotomy b a with hb | hb | hb
    · simp [Nat.not_le.2 hb, read_write_other v (by omega : b ≠ a), show ¬(a + 1 ≤ b) by omega]
    · subst hb
      simp [read_write_same b v h]
    · obtain ⟨k, rfl⟩ : ∃ k, b = a + 1 + k := ⟨b - (a + 1), by omega⟩
      have e1 : a + 1 + k - (a + 1) = k := by omega
      have e2 : a + 1 + k - a = k + 1 := by omega
      simp only [List.length_cons, e1, e2, List.getD_cons_succ, read_write_other v (by omega : a + 1 + k ≠ a)]
      by_cases hk : k < vs.length
      · simp [hk, show a ≤ a + 1 + k by omega, show a + 1 + k < a + (vs.length + 1) by omega]
      · simp [show ¬(k < vs.length) from hk, show ¬(a + 1 + k < a + (vs.length + 1)) by omega]

/-- Every listed offset is below `bound`. -/
theorem write_below {m : Memory} {bound a : Nat} (v : Byte) (h : ∀ c ∈ m, c.1 < bound) (ha : a < bound) :
    ∀ c ∈ m.write a v, c.1 < bound := by
  induction m with
  | nil =>
    unfold Memory.write
    split <;> simp [ha]
  | cons c m ih =>
    have hc := h c (by simp)
    have hm := fun d hd => h d (List.mem_cons_of_mem c hd)
    unfold Memory.write
    split
    · split
      · exact h
      · rintro d (_ | ⟨_, hd⟩)
        · exact ha
        · exact h d hd
    · split
      · split
        · exact hm
        · rintro d (_ | ⟨_, hd⟩)
          · exact ha
          · exact hm d hd
      · rintro d (_ | ⟨_, hd⟩)
        · exact hc
        · exact ih hm d hd

theorem writeBytes_below {m : Memory} {bound a : Nat} (vs : List Byte) (h : ∀ c ∈ m, c.1 < bound)
    (ha : a + vs.length ≤ bound) : ∀ c ∈ m.writeBytes a vs, c.1 < bound := by
  induction vs generalizing m a with
  | nil => exact h
  | cons v vs ih =>
    simp only [List.length_cons] at ha
    exact ih (write_below v h (by omega)) (by omega)

end Sys2Proof.Machine
end

