-- ==== Sys2Proof/Laws/State.lean ====
section
/-! SUPPORT. What each update of the state does to each field. -/

namespace Sys2Proof.Machine

variable (s : State) (kind : ErrorKind) (line : Line) (len : Nat) (bytes : List Byte)

@[simp] theorem takeError_buf : (takeError s kind).buf = s.buf := rfl
@[simp] theorem takeError_n : (takeError s kind).n = s.n := rfl
@[simp] theorem takeError_pc : (takeError s kind).pc = s.pc := rfl
@[simp] theorem takeError_status : (takeError s kind).status = .failed kind (errorInfo s kind) := rfl
@[simp] theorem takeError_out : (takeError s kind).out = s.out := rfl
@[simp] theorem takeError_policy : (takeError s kind).policy = s.policy := rfl

@[simp] theorem emit_buf : (emit s line).buf = s.buf := rfl
@[simp] theorem emit_n : (emit s line).n = s.n := rfl
@[simp] theorem emit_pc : (emit s line).pc = s.pc := rfl
@[simp] theorem emit_status : (emit s line).status = s.status := rfl
@[simp] theorem emit_out : (emit s line).out = s.out ++ [line] := rfl
@[simp] theorem emit_policy : (emit s line).policy = s.policy := rfl

@[simp] theorem advance_buf : (advance s len).buf = s.buf := rfl
@[simp] theorem advance_n : (advance s len).n = s.n := rfl
@[simp] theorem advance_pc : (advance s len).pc = s.pc + len := rfl
@[simp] theorem advance_status : (advance s len).status = s.status := rfl
@[simp] theorem advance_out : (advance s len).out = s.out := rfl
@[simp] theorem advance_policy : (advance s len).policy = s.policy := rfl

@[simp] theorem finish_buf : (finish s).buf = s.buf := rfl
@[simp] theorem finish_n : (finish s).n = s.n := rfl
@[simp] theorem finish_pc : (finish s).pc = s.pc := rfl
@[simp] theorem finish_status : (finish s).status = .done := rfl
@[simp] theorem finish_out : (finish s).out = s.out := rfl
@[simp] theorem finish_policy : (finish s).policy = s.policy := rfl

@[simp] theorem placeAtPc_buf : (placeAtPc s bytes).buf = s.buf.writeBytes s.pc bytes := rfl
@[simp] theorem placeAtPc_n : (placeAtPc s bytes).n = max s.n (s.pc + bytes.length) := rfl
@[simp] theorem placeAtPc_pc : (placeAtPc s bytes).pc = s.pc := rfl
@[simp] theorem placeAtPc_status : (placeAtPc s bytes).status = .running := rfl
@[simp] theorem placeAtPc_out : (placeAtPc s bytes).out = s.out := rfl
@[simp] theorem placeAtPc_policy : (placeAtPc s bytes).policy = s.policy := rfl

@[simp] theorem resetRun_buf : (resetRun s).buf = s.buf := rfl
@[simp] theorem resetRun_n : (resetRun s).n = s.n := rfl
@[simp] theorem resetRun_pc : (resetRun s).pc = 0 := rfl
@[simp] theorem resetRun_status : (resetRun s).status = .running := rfl
@[simp] theorem resetRun_out : (resetRun s).out = [] := rfl
@[simp] theorem resetRun_policy : (resetRun s).policy = s.policy := rfl

@[simp] theorem loadInput_buf : (loadInput s bytes).buf = Memory.writeBytes [] 0 bytes := rfl
@[simp] theorem loadInput_n : (loadInput s bytes).n = bytes.length := rfl
@[simp] theorem loadInput_pc : (loadInput s bytes).pc = s.pc := rfl
@[simp] theorem loadInput_status : (loadInput s bytes).status = s.status := rfl
@[simp] theorem loadInput_out : (loadInput s bytes).out = s.out := rfl
@[simp] theorem loadInput_policy : (loadInput s bytes).policy = s.policy := rfl

end Sys2Proof.Machine
end

