-- ==== Sys2Proof/Laws/Ops.lean ====
section
/-! SUPPORT. What the shared operations can do, said once. -/

namespace Sys2Proof.Machine

/-! ## The enable -/

theorem whenRunning_running {s : State} (k : Host.Outcome State Fault Refusal) (h : s.status = .running) :
    whenRunning s k = k := by
  simp [whenRunning, h]

/-- An answer under the enable means that the run is going on. -/
theorem whenRunning_next {s t : State} {k : Host.Outcome State Fault Refusal} (h : whenRunning s k = .next t) :
    s.status = .running ∧ k = .next t := by
  unfold whenRunning at h
  split at h
  · exact ⟨‹_›, h⟩
  · cases h
  · cases h

/-! ## One record consumed -/

/-- Every form is one record given to the shared operation. -/
theorem exec_eq_consume (i : Instr) (s : State) : exec i s = consume (instrRecord i) s := by
  cases i <;> rfl

/-- Everything `consume` can do when it answers a next state. -/
theorem consume_cases {r : Record} {s t : State} (h : consume r s = .next t) :
    s.status = .running ∧
    ((∃ kind, formError r s = some kind ∧ t = takeError s kind) ∨
     (formError r s = none ∧ t = advance (emit s (render r)) r.lengthBytes)) := by
  obtain ⟨hs, h⟩ := whenRunning_next h
  refine ⟨hs, ?_⟩
  split at h
  · exact .inl ⟨_, ‹_›, by cases h; rfl⟩
  · exact .inr ⟨‹_›, by cases h; rfl⟩

/-- No form has an error exactly when its bytes are there and the policy lets it. -/
theorem formError_none {r : Record} {s : State} (hr : 2 ≤ r.lengthBytes) :
    formError r s = none ↔
      r.lengthBytes ≤ s.n - s.pc ∧ ¬(s.policy = .refuse ∧ recordIsDirectAddress r = true) := by
  unfold formError avail
  split
  · exact ⟨nofun, fun h => absurd h.1 (by omega)⟩
  · split
    · rename_i hp
      exact ⟨nofun, fun h => absurd (by simpa using hp) h.2⟩
    · rename_i hp
      split
      · exact ⟨nofun, fun h => absurd h.1 (by omega)⟩
      · exact ⟨fun _ => ⟨by omega, by simpa using hp⟩, fun _ => rfl⟩

theorem instrRecord_length (i : Instr) :
    (instrRecord i).lengthBytes = 2 ∨ (instrRecord i).lengthBytes = 3 ∨ (instrRecord i).lengthBytes = 4 := by
  cases i <;> simp [instrRecord, rmRecord, irRecord, Record.lengthBytes, rmLength, irLength]

theorem recordIsDirectAddress_instrRecord (i : Instr) :
    recordIsDirectAddress (instrRecord i) = i.isDirectAddress := by
  cases i <;> rfl

/-! ## The window -/

theorem length_window (s : State) (p : Nat) : (window s p).length = min (s.n - p) 4 := by
  simp [window, avail]

/-- Byte `k` of the window at `p` is the byte of the buffer at `p + k`. -/
theorem window_getElem? (s : State) (p k : Nat) :
    (window s p)[k]? = if k < min (s.n - p) 4 then some (s.buf.read (p + k)) else none := by
  simp only [window, avail, List.getElem?_map]
  split <;> simp_all

/-! ## One step -/

/-- Everything a step can do when it answers a next state. -/
theorem step_cases {s t : State} (h : step s = .next t) :
    s.status = .running ∧
    ((s.pc = s.n ∧ t = finish s) ∨
     (s.pc ≠ s.n ∧ ∃ kind, decodeAt s s.pc = .error kind ∧ t = takeError s kind) ∨
     (s.pc ≠ s.n ∧ ∃ i, decodeAt s s.pc = .ok i ∧ exec i s = .next t)) := by
  obtain ⟨hs, h⟩ := whenRunning_next h
  refine ⟨hs, ?_⟩
  split at h
  · exact .inl ⟨‹_›, by cases h; rfl⟩
  · split at h
    · exact .inr (.inr ⟨‹_›, _, ‹_›, h⟩)
    · exact .inr (.inl ⟨‹_›, _, ‹_›, by cases h; rfl⟩)

end Sys2Proof.Machine
end

