-- ==== Sys2Proof/Laws/PerInstr.lean ====
section
/-! SUPPORT. Statements made per instruction, one lemma per constructor (LAWS.json). -/

namespace Sys2Proof.Laws

open Sys2Proof.Machine

/-! `LengthOfEncoding`: an instruction's encoding has its record's length, and its first two bytes alone tell that
length (30_encoding.md R62, 41_opcode_parser.md R95). -/

def LengthOfEncoding.Statement (i : Instr) : Prop :=
  (encode i).length = (instrRecord i).lengthBytes ∧
  ∃ b0 b1 tail, encode i = b0 :: b1 :: tail ∧ lengthOfHead b0 b1 = some (instrRecord i).lengthBytes

theorem LengthOfEncoding.rm (d : Direction) (w : Width) (m : Mode) (reg rm : Selector) :
    lengthOfHead (rmFirstByte d w) (modeByte m reg rm) = some (rmLength m) := by
  simp [lengthOfHead, classify_rmFirstByte, modeField_modeByte]

theorem LengthOfEncoding.ir (w : Width) (reg : Selector) (b1 : Byte) :
    lengthOfHead (irFirstByte w reg) b1 = some (irLength w) := by
  simp [lengthOfHead, classify_irFirstByte, irWidth_irFirstByte]

theorem LengthOfEncoding.movRmRReg (w : Width) (reg rm : Selector) : Statement (.movRmRReg w reg rm) :=
  ⟨rfl, _, _, _, rfl, LengthOfEncoding.rm ..⟩

theorem LengthOfEncoding.movRmRMem0 (w : Width) (reg rm : Selector) : Statement (.movRmRMem0 w reg rm) :=
  ⟨rfl, _, _, _, rfl, LengthOfEncoding.rm ..⟩

theorem LengthOfEncoding.movRmRMem8 (w : Width) (reg rm : Selector) (disp : Word) :
    Statement (.movRmRMem8 w reg rm disp) :=
  ⟨rfl, _, _, _, rfl, LengthOfEncoding.rm ..⟩

theorem LengthOfEncoding.movRmRMem16 (w : Width) (reg rm : Selector) (disp : Word) :
    Statement (.movRmRMem16 w reg rm disp) :=
  ⟨rfl, _, _, _, rfl, LengthOfEncoding.rm ..⟩

theorem LengthOfEncoding.movRRmReg (w : Width) (reg rm : Selector) : Statement (.movRRmReg w reg rm) :=
  ⟨rfl, _, _, _, rfl, LengthOfEncoding.rm ..⟩

theorem LengthOfEncoding.movRRmMem0 (w : Width) (reg rm : Selector) : Statement (.movRRmMem0 w reg rm) :=
  ⟨rfl, _, _, _, rfl, LengthOfEncoding.rm ..⟩

theorem LengthOfEncoding.movRRmMem8 (w : Width) (reg rm : Selector) (disp : Word) :
    Statement (.movRRmMem8 w reg rm disp) :=
  ⟨rfl, _, _, _, rfl, LengthOfEncoding.rm ..⟩

theorem LengthOfEncoding.movRRmMem16 (w : Width) (reg rm : Selector) (disp : Word) :
    Statement (.movRRmMem16 w reg rm disp) :=
  ⟨rfl, _, _, _, rfl, LengthOfEncoding.rm ..⟩

theorem LengthOfEncoding.movRImm8 (reg : Selector) (imm : Word) : Statement (.movRImm8 reg imm) :=
  ⟨rfl, _, _, _, rfl, LengthOfEncoding.ir ..⟩

theorem LengthOfEncoding.movRImm16 (reg : Selector) (imm : Word) : Statement (.movRImm16 reg imm) :=
  ⟨rfl, _, _, _, rfl, LengthOfEncoding.ir ..⟩

end Sys2Proof.Laws
end

