-- ==== Sys2Proof/Laws/Render.lean ====
section
/-! SUPPORT. The texts of the Renderer, one lemma per table. -/

namespace Sys2Proof.Machine

open Sys2Proof.Safety

/-- Every register name's text is a `register` of 44_renderer.md R138. -/
theorem regText_mem (r : RegName) : regText r ∈ registerTexts := by
  cases r <;> decide

/-- `REGNAME` as the spec's one list: the byte names, then the word names (40_field_tables.md R81). -/
theorem regText_regName (w : Width) (sel : Selector) :
    regText (regName w sel) = registerTexts.getD (8 * (match w with | .byte => 0 | .word => 1) + sel.toNat) [] := by
  cases w <;> revert sel <;> decide

/-- Distinct register names have distinct texts. -/
theorem regText_injective {a b : RegName} (h : regText a = regText b) : a = b := by
  revert h; cases a <;> cases b <;> decide

/-- `EANAME` as the spec's table (40_field_tables.md R85). -/
theorem baseText_eaBase (rm : Selector) : baseText (eaBase rm) = baseTexts.getD rm.toNat [] := by
  revert rm; decide

theorem baseText_mem (rm : Selector) : baseText (eaBase rm) ∈ baseTexts := by
  revert rm; decide

/-- Distinct `rm` values name distinct bases. -/
theorem baseText_injective {a b : Selector} (h : baseText (eaBase a) = baseText (eaBase b)) : a = b := by
  revert a b; decide

theorem digitValue_digitChar {d : Nat} (h : d < 10) : digitValue (digitChar d) = some d := by
  interval_cases d <;> decide

theorem digitsValue_append (acc : Nat) (xs : Line) (c : Char) :
    digitsValue acc (xs ++ [c]) =
      (digitsValue acc xs).bind fun v => (digitValue c).map fun d => 10 * v + d := by
  induction xs generalizing acc with
  | nil => cases h : digitValue c <;> simp [digitsValue, h]
  | cons x xs ih => cases h : digitValue x <;> simp [digitsValue, h, ih]

/-- The digits of a number read back as that number, when they are enough. -/
theorem digitsValue_digitsText (fuel v : Nat) (h : v < 10 ^ (fuel + 1)) :
    digitsValue 0 (digitsText fuel v) = some v := by
  induction fuel generalizing v with
  | zero =>
    have hv : v < 10 := by simpa using h
    simp [digitsText, digitsValue, Nat.mod_eq_of_lt hv, digitValue_digitChar hv]
  | succ fuel ih =>
    unfold digitsText
    split
    · rename_i hv
      simp [digitsValue, digitValue_digitChar hv]
    · rw [digitsValue_append, ih (v / 10) (by rw [Nat.div_lt_iff_lt_mul (by norm_num)]; rw [pow_succ] at h; exact h),
        digitValue_digitChar (Nat.mod_lt v (by norm_num))]
      simp only [Option.bind_some, Option.map_some]
      congr 1
      omega

/-- The first digit of a positive number is not `0`. -/
theorem digitsText_head (fuel v : Nat) (h : v < 10 ^ (fuel + 1)) (hv : 0 < v) :
    ∃ c cs, digitsText fuel v = c :: cs ∧ c ≠ '0' ∧ c ≠ '-' := by
  have digit : ∀ d, 0 < d → d < 10 → digitChar d ≠ '0' ∧ digitChar d ≠ '-' := by
    intro d h0 h1
    interval_cases d <;> decide
  induction fuel generalizing v with
  | zero =>
    have h10 : v < 10 := by simpa using h
    exact ⟨_, [], by simp [digitsText, Nat.mod_eq_of_lt h10], digit v hv h10⟩
  | succ fuel ih =>
    unfold digitsText
    split
    · exact ⟨_, [], rfl, digit v hv ‹_›⟩
    · obtain ⟨c, cs, h1, h2⟩ := ih (v / 10)
        (by rw [Nat.div_lt_iff_lt_mul (by norm_num)]; rw [pow_succ] at h; exact h) (by omega)
      exact ⟨c, _, by rw [h1]; rfl, h2⟩

end Sys2Proof.Machine
end

