-- ==== Sys2Proof/Tests/Slice0.lean ====
section
/-! SUPPORT. Tests with expected results from spec/95_test_vectors.md (cited S<n>, P<n>, V<section>) and from the
worked examples of the rules, and a witness for the hypotheses of every statement that has some. -/

namespace Sys2Proof.Tests

open Sys2Proof.Machine Sys2Proof.Safety

/-- A fresh run on the given bytes. -/
def stateOf (policy : DirectAddressPolicy) (bytes : List Byte) : State :=
  loadInput { State.reset with policy := policy } bytes

/-- The lines and the cursor after one step. -/
def lineAndPc (bytes : List Byte) : Option (Line × Nat) :=
  match step (stateOf .asDocumented bytes) with
  | .next t => some (t.out.flatten, t.pc)
  | .fault _ => none
  | .refused _ => none

/-- Status, cursor and lines after one step. -/
def afterStep (s : State) : Option (Status × Nat × List Line) :=
  match step s with
  | .next t => some (t.status, t.pc, t.out)
  | .fault _ => none
  | .refused _ => none

/-! ## Well-formedness: a term for each check that it refuses -/

theorem test_wf_refuses_rmR8 : (Instr.movRmRMem8 .word 2 7 0x0100).wellFormed = false := by decide
theorem test_wf_refuses_rRm8 : (Instr.movRRmMem8 .byte 0 0 0x0080).wellFormed = false := by decide
theorem test_wf_refuses_imm8 : (Instr.movRImm8 0 0x00FF).wellFormed = false := by decide
theorem test_wf_accepts_extended : (Instr.movRImm8 0 0xFFFF).wellFormed = true := by decide

/-! ## Words written out bit by bit from the encodings of 30_encoding.md -/

-- 100010 d=0 w=1, 11 011 001 (42 R101)
theorem test_decode_rmRReg :
    decodeBytes .asDocumented [0b10001001, 0b11011001] = .ok (.movRmRReg .word 3 1) := by decide
-- 100010 0 1, 00 110 110 (V4)
theorem test_decode_rmRMem0 :
    decodeBytes .asDocumented [0b10001001, 0b00110110] = .ok (.movRmRMem0 .word 6 6) := by decide
-- 100010 0 0, 01 100 011, 80 (V4)
theorem test_decode_rmRMem8 :
    decodeBytes .asDocumented [0b10001000, 0b01100011, 0b10000000] = .ok (.movRmRMem8 .byte 4 3 0xFF80) := by decide
-- 100010 0 1, 10 010 000, 34 12 (V4)
theorem test_decode_rmRMem16 :
    decodeBytes .asDocumented [0b10001001, 0b10010000, 0x34, 0x12] = .ok (.movRmRMem16 .word 2 0 0x1234) := by decide
-- 100010 1 1, 11 001 011 (42 R105)
theorem test_decode_rRmReg :
    decodeBytes .asDocumented [0b10001011, 0b11001011] = .ok (.movRRmReg .word 1 3) := by decide
-- 100010 1 0, 00 001 110 (V4)
theorem test_decode_rRmMem0 :
    decodeBytes .asDocumented [0b10001010, 0b00001110] = .ok (.movRRmMem0 .byte 1 6) := by decide
-- 100010 1 1, 01 011 000, 80 (V4)
theorem test_decode_rRmMem8 :
    decodeBytes .asDocumented [0b10001011, 0b01011000, 0b10000000] = .ok (.movRRmMem8 .word 3 0 0xFF80) := by decide
-- 100010 1 1, 10 010 110, 34 12 (42 R108)
theorem test_decode_rRmMem16 :
    decodeBytes .asDocumented [0b10001011, 0b10010110, 0x34, 0x12] = .ok (.movRRmMem16 .word 2 6 0x1234) := by decide
-- 1011 0 101, F4 (V5)
theorem test_decode_rImm8 :
    decodeBytes .asDocumented [0b10110101, 0b11110100] = .ok (.movRImm8 5 0xFFF4) := by decide
-- 1011 1 110, F4 FF (V5)
theorem test_decode_rImm16 :
    decodeBytes .asDocumented [0b10111110, 0xF4, 0xFF] = .ok (.movRImm16 6 0xFFF4) := by decide

theorem test_encode_rmRMem16 : encode (.movRmRMem16 .word 3 4 0x0100) = [0x89, 0x9C, 0x00, 0x01] := by decide
theorem test_encode_rImm16 : encode (.movRImm16 0 0x1234) = [0xB8, 0x34, 0x12] := by decide

/-! ## One step of each form -/

theorem test_step_rmRReg : lineAndPc [0x89, 0xD9] = some ("mov cx, bx\n".toList, 2) := by decide        -- S1
theorem test_step_rmRReg_byte : lineAndPc [0x88, 0xE8] = some ("mov al, ch\n".toList, 2) := by decide   -- S2, C1
theorem test_step_rmRMem0 : lineAndPc [0x89, 0x0C] = some ("mov [si], cx\n".toList, 2) := by decide     -- R102
theorem test_step_rmRMem8 : lineAndPc [0x89, 0x57, 0xFB] = some ("mov [bx + -5], dx\n".toList, 3) := by decide -- R103
theorem test_step_rmRMem8_zero : lineAndPc [0x88, 0x46, 0x00] = some ("mov [bp], al\n".toList, 3) := by decide -- R103
theorem test_step_rmRMem16 :
    lineAndPc [0x89, 0xAB, 0x00, 0x80] = some ("mov [bp + di + -32768], bp\n".toList, 4) := by decide   -- V4
theorem test_step_rRmReg : lineAndPc [0x8A, 0xE8] = some ("mov ch, al\n".toList, 2) := by decide        -- S2a
theorem test_step_rRmMem0 : lineAndPc [0x8A, 0x00] = some ("mov al, [bx + si]\n".toList, 2) := by decide -- R106
theorem test_step_rRmMem0_bp : lineAndPc [0x8B, 0x1E] = some ("mov bx, [bp]\n".toList, 2) := by decide  -- P5
theorem test_step_rRmMem8 : lineAndPc [0x8B, 0x47, 0x04] = some ("mov ax, [bx + 4]\n".toList, 3) := by decide -- R107
theorem test_step_rRmMem16 :
    lineAndPc [0x8A, 0x80, 0xFE, 0xFF] = some ("mov al, [bx + si + -2]\n".toList, 4) := by decide       -- R108
theorem test_step_rImm8 : lineAndPc [0xB0, 0xFF] = some ("mov al, -1\n".toList, 2) := by decide         -- S3
theorem test_step_rImm8_zero : lineAndPc [0xB1, 0x00] = some ("mov cl, 0\n".toList, 2) := by decide     -- R136
theorem test_step_rImm16 : lineAndPc [0xB8, 0x34, 0x12] = some ("mov ax, 4660\n".toList, 3) := by decide -- S4
theorem test_step_rImm16_255 : lineAndPc [0xB9, 0xFF, 0x00] = some ("mov cx, 255\n".toList, 3) := by decide -- V5

/-! ## Errors and the end of a run -/

-- P3 at its third step: `90` at 4 of 7 bytes
theorem test_unrecognized :
    afterStep { stateOf .asDocumented [0xB1, 0x0C, 0x8A, 0xE8, 0x90, 0xB0, 0x01] with pc := 4 } =
      some (.failed .unrecognizedOpcode ⟨4, some 0x90⟩, 4, []) := by decide
-- P4 at its second step: `8B 47` at 2 of 4 bytes
theorem test_truncated :
    afterStep { stateOf .asDocumented [0x89, 0xD9, 0x8B, 0x47] with pc := 2 } =
      some (.failed .truncatedStream ⟨2, none⟩, 2, []) := by decide
-- P5 under `refuse`
theorem test_invalidField :
    afterStep (stateOf .refuse [0x8B, 0x1E, 0x34, 0x12, 0xB8, 0x01, 0x00]) =
      some (.failed .invalidField ⟨0, none⟩, 0, []) := by decide
-- V7: a recognised first byte that is the last byte; an unrecognised one
theorem test_lone_recognised : afterStep (stateOf .asDocumented [0x8B]) =
    some (.failed .truncatedStream ⟨0, none⟩, 0, []) := by decide
theorem test_lone_unrecognised : afterStep (stateOf .asDocumented [0xFF]) =
    some (.failed .unrecognizedOpcode ⟨0, some 0xFF⟩, 0, []) := by decide
-- P6: the empty buffer
theorem test_empty : afterStep (stateOf .asDocumented []) = some (.done, 0, []) := by decide
-- V7: under `refuse` rm = 7 and mode 01 are still accepted
theorem test_refuse_near :
    decodeBytes .refuse [0x8B, 0x1F] = .ok (.movRRmMem0 .word 3 7) ∧
    decodeBytes .refuse [0x8B, 0x5E, 0x00] = .ok (.movRRmMem8 .word 3 6 0) := by decide
-- V2: the neighbours of the two ranges
theorem test_classify_edges :
    [0x87, 0x88, 0x8B, 0x8C, 0xAF, 0xB0, 0xBF, 0xC0].map classify =
      [none, some .movRm, some .movRm, none, none, some .movIr, some .movIr, none] := by decide
-- 30 R65: either order of the two patterns gives the same class
theorem test_class_order : ∀ b0 : Byte,
    (classTable.reverse.find? fun row => b0 &&& row.1 == row.2.1).map (fun row => row.2.2) = classify b0 := by decide
-- 40 R80's worked example, 40 R85's
theorem test_roms : regName .byte 5 = .ch ∧ regName .word 5 = .bp ∧ eaBase 6 = [.bp] ∧ eaBase 3 = [.bp, .di] := by decide
-- V6
theorem test_sext16 : [0x00, 0x7F, 0x80, 0xFB].map sext16 = [0x0000, 0x007F, 0xFF80, 0xFFFB] := by decide
theorem test_le16 : le16 0x12 0x34 = 0x3412 ∧ signed16 (le16 0x00 0xFF) = -256 := by decide
-- 10 R14 field table: FAILED is state 2, TruncatedStream is code 4
theorem test_status_bits : statusBits (.failed .truncatedStream ⟨2, none⟩) = 0b10010#5 := by decide
-- 70 R192: byte i at offset i, a zero byte included
theorem test_load : (stateOf .asDocumented [0x88, 0x00, 0x07]).buf = [(0, 0x88), (2, 0x07)] := by decide
-- a canonical write of the unlisted value removes the cell
theorem test_write_removes : Memory.write [(0, 0x88), (2, 0x07)] 2 0 = [(0, 0x88)] := by decide

/-! ## Witnesses for the hypotheses of the statements -/

/-- `need` bytes are there, and one less is not: the completion and the truncation clause of a form at their boundary. -/
def bothClauses (need : Nat) (full short : State) : Prop :=
  (full.status = .running ∧ full.pc + need ≤ full.n ∧ full.n = full.pc + need) ∧
  (short.status = .running ∧ short.n - short.pc < need ∧ short.n - short.pc = need - 1)

theorem witness_RmRRegForm :
    bothClauses 2 (stateOf .refuse [0x88, 0xE8]) (stateOf .refuse [0x88]) := ⟨⟨rfl, by decide, rfl⟩, rfl, by decide, rfl⟩
theorem witness_RRmRegForm :
    bothClauses 2 (stateOf .refuse [0x8A, 0xE8]) (stateOf .refuse [0x8A]) := ⟨⟨rfl, by decide, rfl⟩, rfl, by decide, rfl⟩
theorem witness_RmRMem0Form :
    bothClauses 2 (stateOf .asDocumented [0x88, 0x06]) (stateOf .refuse [0x88]) ∧
    (stateOf .refuse [0x88, 0x06]).policy = .refuse ∧
    ¬((stateOf .asDocumented [0x88, 0x06]).policy = .refuse ∧ (6 : Selector) = 6) ∧
    ¬((stateOf .refuse [0x88, 0x07]).policy = .refuse ∧ (7 : Selector) = 6) :=
  ⟨⟨⟨rfl, by decide, rfl⟩, rfl, by decide, rfl⟩, rfl, by decide, by decide⟩
theorem witness_RRmMem0Form :
    bothClauses 2 (stateOf .asDocumented [0x8A, 0x06]) (stateOf .refuse [0x8A]) ∧
    (stateOf .refuse [0x8A, 0x06]).policy = .refuse ∧
    ¬((stateOf .asDocumented [0x8A, 0x06]).policy = .refuse ∧ (6 : Selector) = 6) ∧
    ¬((stateOf .refuse [0x8A, 0x07]).policy = .refuse ∧ (7 : Selector) = 6) :=
  ⟨⟨⟨rfl, by decide, rfl⟩, rfl, by decide, rfl⟩, rfl, by decide, by decide⟩
theorem witness_RmRMem8Form :
    bothClauses 3 (stateOf .refuse [0x88, 0x46, 0x00]) (stateOf .refuse [0x88, 0x46]) :=
  ⟨⟨rfl, by decide, rfl⟩, rfl, by decide, rfl⟩
theorem witness_RRmMem8Form :
    bothClauses 3 (stateOf .refuse [0x8B, 0x47, 0x04]) (stateOf .refuse [0x8B, 0x47]) :=
  ⟨⟨rfl, by decide, rfl⟩, rfl, by decide, rfl⟩
theorem witness_RmRMem16Form :
    bothClauses 4 (stateOf .refuse [0x89, 0x9C, 0x00, 0x01]) (stateOf .refuse [0x89, 0x9C, 0x00]) :=
  ⟨⟨rfl, by decide, rfl⟩, rfl, by decide, rfl⟩
theorem witness_RRmMem16Form :
    bothClauses 4 (stateOf .refuse [0x8B, 0x87, 0x34, 0x12]) (stateOf .refuse [0x8B, 0x87, 0x34]) :=
  ⟨⟨rfl, by decide, rfl⟩, rfl, by decide, rfl⟩
theorem witness_RImm8Form :
    bothClauses 2 (stateOf .refuse [0xB0, 0xFF]) (stateOf .refuse [0xB0]) := ⟨⟨rfl, by decide, rfl⟩, rfl, by decide, rfl⟩
theorem witness_RImm16Form :
    bothClauses 3 (stateOf .refuse [0xB8, 0x34, 0x12]) (stateOf .refuse [0xB8, 0x34]) :=
  ⟨⟨rfl, by decide, rfl⟩, rfl, by decide, rfl⟩

/-- A form that runs, and one that takes an error. -/
theorem witness_ExecFrame :
    (∃ t, exec (.movRmRReg .word 3 1) (stateOf .asDocumented [0x89, 0xD9]) = .next t ∧ t.status = .running) ∧
    (∃ t, exec (.movRmRReg .word 3 1) (stateOf .asDocumented [0x89]) = .next t ∧ t.status ≠ .running) :=
  ⟨⟨_, rfl, rfl⟩, _, rfl, by decide⟩

/-- The three ways a step answers: it ends the run, it fails, it runs an instruction. They serve every statement whose
hypothesis is a step that answers a next state. -/
theorem witness_steps :
    ((stateOf .asDocumented []).pc = (stateOf .asDocumented []).n ∧
      ∃ t, step (stateOf .asDocumented []) = .next t) ∧
    ((stateOf .asDocumented [0x90]).pc ≠ (stateOf .asDocumented [0x90]).n ∧
      decodeAt (stateOf .asDocumented [0x90]) 0 = .error .unrecognizedOpcode ∧
      ∃ t, step (stateOf .asDocumented [0x90]) = .next t) ∧
    ((stateOf .asDocumented [0xB0, 0xFF]).pc ≠ (stateOf .asDocumented [0xB0, 0xFF]).n ∧
      decodeAt (stateOf .asDocumented [0xB0, 0xFF]) 0 = .ok (.movRImm8 0 0xFFFF) ∧
      ∃ t, step (stateOf .asDocumented [0xB0, 0xFF]) = .next t) :=
  ⟨⟨rfl, _, rfl⟩, ⟨by decide, by decide, _, rfl⟩, by decide, by decide, _, rfl⟩

theorem witness_StepNeverWritesMemory : ∃ t, step (stateOf .asDocumented [0xB0, 0xFF]) = .next t := ⟨_, rfl⟩
theorem witness_CursorAdvancesByLength : ∃ t, step (stateOf .asDocumented [0x8B, 0x87, 0x34, 0x12]) = .next t := ⟨_, rfl⟩
theorem witness_OutputAppendsOneLine : ∃ t, step (stateOf .asDocumented [0xB8, 0x34, 0x12]) = .next t := ⟨_, rfl⟩

theorem witness_StepRunsDecodedInstruction :
    (stateOf .asDocumented [0xB0, 0xFF]).status = .running ∧
    (stateOf .asDocumented [0xB0, 0xFF]).pc ≠ (stateOf .asDocumented [0xB0, 0xFF]).n ∧
    decodeAt (stateOf .asDocumented [0xB0, 0xFF]) (stateOf .asDocumented [0xB0, 0xFF]).pc =
      .ok (.movRImm8 0 0xFFFF) := by decide

theorem witness_StepRelation :
    (finish State.reset).status ≠ .running ∧
    (State.reset.status = .running ∧ State.reset.pc = State.reset.n) ∧
    ((stateOf .asDocumented [0xB0, 0xFF]).status = .running ∧
      decodeAt (stateOf .asDocumented [0xB0, 0xFF]) 0 = .ok (.movRImm8 0 0xFFFF)) ∧
    ((stateOf .asDocumented [0x90]).status = .running ∧
      decodeAt (stateOf .asDocumented [0x90]) 0 = .error .unrecognizedOpcode) := by decide

theorem witness_TerminalStatusStops :
    (finish State.reset).status = .done ∧
    (takeError State.reset .truncatedStream).status = .failed .truncatedStream ⟨0, none⟩ := by decide

theorem witness_RunningNeverStops : State.reset.status = .running := rfl

theorem witness_ErrorWritesStatusOnly :
    (stateOf .asDocumented [0x90]).status = .running ∧
    (stateOf .asDocumented [0x90]).pc ≠ (stateOf .asDocumented [0x90]).n ∧
    decodeAt (stateOf .asDocumented [0x90]) (stateOf .asDocumented [0x90]).pc = .error .unrecognizedOpcode := by decide

theorem witness_UnrecognizedExactly :
    (stateOf .asDocumented [0x8C, 0xD8]).pc ≠ (stateOf .asDocumented [0x8C, 0xD8]).n ∧
    decodeAt (stateOf .asDocumented [0x8C, 0xD8]) (stateOf .asDocumented [0x8C, 0xD8]).pc =
      .error .unrecognizedOpcode ∧
    ∃ t, step (stateOf .asDocumented [0x8C, 0xD8]) = .next t := ⟨by decide, by decide, _, rfl⟩

theorem witness_UnrecognizedFirstByte :
    (stateOf .asDocumented [0xAF]).status = .running ∧
    (stateOf .asDocumented [0xAF]).pc < (stateOf .asDocumented [0xAF]).n ∧
    ¬(0x88 ≤ ((stateOf .asDocumented [0xAF]).buf.read 0).toNat ∧
      ((stateOf .asDocumented [0xAF]).buf.read 0).toNat ≤ 0x8B) ∧
    ¬(0xB0 ≤ ((stateOf .asDocumented [0xAF]).buf.read 0).toNat ∧
      ((stateOf .asDocumented [0xAF]).buf.read 0).toNat ≤ 0xBF) := by decide

/-- V8's first two rows: the same window at positions 2 and 0 of two different buffers, the last byte apart. -/
theorem witness_DecodeDependsOnWindowOnly :
    (stateOf .asDocumented [0x90, 0x90, 0x8B, 0x47, 0x04]).policy = (stateOf .asDocumented [0x8B, 0x47, 0x04]).policy ∧
    min ((stateOf .asDocumented [0x90, 0x90, 0x8B, 0x47, 0x04]).n - 2) 4 =
      min ((stateOf .asDocumented [0x8B, 0x47, 0x04]).n - 0) 4 ∧
    ∀ k, k < min ((stateOf .asDocumented [0x90, 0x90, 0x8B, 0x47, 0x04]).n - 2) 4 →
      (stateOf .asDocumented [0x90, 0x90, 0x8B, 0x47, 0x04]).buf.read (2 + k) =
        (stateOf .asDocumented [0x8B, 0x47, 0x04]).buf.read (0 + k) := by decide

theorem witness_DecodeReadsOwnBytesOnly :
    decodeBytes .asDocumented [0x8B, 0x47, 0x04, 0x90] = .ok (.movRRmMem8 .word 0 7 4) := by decide
theorem witness_DecodedRecordIsValid :
    decodeAt (stateOf .asDocumented [0xB0, 0x80]) 0 = .ok (.movRImm8 0 0xFF80) ∧
    decodeAt (stateOf .asDocumented [0xB8, 0x00, 0x80]) 0 = .ok (.movRImm16 0 0x8000) ∧
    decodeAt (stateOf .asDocumented [0x89, 0xC0]) 0 = .ok (.movRmRReg .word 0 0) ∧
    decodeAt (stateOf .asDocumented [0x8B, 0x1E]) 0 = .ok (.movRRmMem0 .word 3 6) ∧
    decodeAt (stateOf .asDocumented [0x89, 0x57, 0x80]) 0 = .ok (.movRmRMem8 .word 2 7 0xFF80) ∧
    decodeAt (stateOf .asDocumented [0x8A, 0x80, 0xFE, 0xFF]) 0 = .ok (.movRRmMem16 .byte 0 0 0xFFFE) := by decide
theorem witness_LengthIsAFunctionOfHead :
    decodeBytes .asDocumented (0x8B :: 0x87 :: [0x34, 0x12]) = .ok (.movRRmMem16 .word 0 7 0x1234) := by decide
theorem witness_DecodeOfEncode :
    (Instr.movRRmMem0 .word 3 6).wellFormed = true ∧
    ¬(DirectAddressPolicy.asDocumented = .refuse ∧ (Instr.movRRmMem0 .word 3 6).isDirectAddress = true) ∧
    (DirectAddressPolicy.refuse = .refuse ∧ (Instr.movRRmMem0 .word 3 6).isDirectAddress = true) ∧
    (Instr.movRImm8 7 0xFF80).wellFormed = true := by decide
theorem witness_EncodeOfDecode :
    decodeBytes .refuse [0x88, 0x7E, 0x01, 0xFF] = .ok (.movRmRMem8 .byte 7 6 1) := by decide
theorem witness_FetchWordRunsTableInstruction :
    State.reset.buf.wf = true ∧ State.reset.policy = Config.defaultPolicy ∧
    decodeTableWord 16 0x88C0 = some (.movRmRReg .byte 0 0) := by decide
theorem witness_DecimalTextReadsBack : (-32768 : Int) ≤ -32768 ∧ (-32768 : Int) ≤ 32767 ∧ (-32768 : Int) ≤ 32767 := by decide
theorem witness_LineDeterminesOperands :
    render (instrRecord (.movRmRReg .word 3 1)) = render (instrRecord (.movRRmReg .word 1 3)) := by decide

theorem runInv_reset : runInv State.reset := ⟨⟨rfl, nofun⟩, Nat.le_refl 0, trivial, nofun⟩
theorem witness_StepKeepsRunInvariant : runInv State.reset ∧ step State.reset = .next (finish State.reset) :=
  ⟨runInv_reset, rfl⟩
theorem witness_ResetStartsANewRun : runInv State.reset := runInv_reset
theorem witness_StatusEncodingAndExitCode :
    (statusBits .running).extractLsb' 0 2 ≠ 2#2 ∧
    (Status.failed .invalidField ⟨0, none⟩) = .failed .invalidField ⟨0, none⟩ := by decide
theorem witness_EveryRunTerminates : (stateOf .refuse [0x8B, 0x1E]).status = .running := rfl

/-- P2's shape at its smallest: two instructions laid end to end. -/
theorem witness_EncodingsRunToDone :
    (stateOf .refuse [0x89, 0xD9, 0xB0, 0xFF]).status = .running ∧
    (∀ i ∈ [Instr.movRmRReg .word 3 1, Instr.movRImm8 0 0xFFFF],
      i.wellFormed = true ∧
        ¬((stateOf .refuse [0x89, 0xD9, 0xB0, 0xFF]).policy = .refuse ∧ i.isDirectAddress = true)) ∧
    (stateOf .refuse [0x89, 0xD9, 0xB0, 0xFF]).n =
      (stateOf .refuse [0x89, 0xD9, 0xB0, 0xFF]).pc +
        ([Instr.movRmRReg .word 3 1, Instr.movRImm8 0 0xFFFF].flatMap encode).length ∧
    (∀ k, k < ([Instr.movRmRReg .word 3 1, Instr.movRImm8 0 0xFFFF].flatMap encode).length →
      ([Instr.movRmRReg .word 3 1, Instr.movRImm8 0 0xFFFF].flatMap encode)[k]? =
        some ((stateOf .refuse [0x89, 0xD9, 0xB0, 0xFF]).buf.read
          ((stateOf .refuse [0x89, 0xD9, 0xB0, 0xFF]).pc + k))) := by decide

theorem witness_DoneMeansEncodings :
    (stateOf .asDocumented [0xB0, 0xFF]).status = .running ∧
    ∃ t, runsTo 2 (stateOf .asDocumented [0xB0, 0xFF]) t ∧ t.status = .done := ⟨rfl, _, rfl, rfl⟩

theorem witness_FailedRunIsPrecise :
    (stateOf .asDocumented [0xB0, 0xFF, 0x90]).status = .running ∧
    ∃ t, runsTo 2 (stateOf .asDocumented [0xB0, 0xFF, 0x90]) t ∧
      t.status = .failed .unrecognizedOpcode ⟨2, some 0x90⟩ := ⟨rfl, _, rfl, rfl⟩

end Sys2Proof.Tests
end

section
/-! PROOFS. What a successful decode call guarantees of the instruction, its record and its length. -/

namespace Sys2Proof

open Sys2Proof.Machine Sys2Proof.Safety

/-! ## Sign-extended bytes -/

theorem signed16_range_of_fitsByte {v : Word} (h : fitsByte v = true) : -128 ≤ signed16 v ∧ signed16 v ≤ 127 := by
  rw [of_decide_eq_true h]
  exact signed16_sext16_range _

theorem fitsByte_of_displacement_mem8 {rest : List Byte} {disp : Word} (h : displacement .mem8 rest = some disp) :
    fitsByte disp = true := by
  cases rest with
  | nil => cases h
  | cons lo tail => cases h; exact fitsByte_sext16 lo

theorem fitsByte_of_immediate_byte {rest : List Byte} {imm : Word} (h : immediate .byte rest = some imm) :
    fitsByte imm = true := by
  cases rest with
  | nil => cases h
  | cons lo tail => cases h; exact fitsByte_sext16 lo

/-! ## The forms that the two paths select -/

theorem wellFormed_rmInstr {d : Direction} {mode : Mode} {w : Width} {reg rm : Selector} {disp : Word}
    (h : mode = .mem8 → fitsByte disp = true) : (rmInstr d mode w reg rm disp).wellFormed = true := by
  cases mode with
  | mem8 => cases d <;> exact h rfl
  | mem0 | mem16 | reg => cases d <;> rfl

theorem wellFormed_irInstr {w : Width} {reg : Selector} {imm : Word} (h : w = .byte → fitsByte imm = true) :
    (irInstr w reg imm).wellFormed = true := by
  cases w with
  | byte => exact h rfl
  | word => rfl

theorem isDirectAddress_rmInstr (d : Direction) (mode : Mode) (w : Width) (reg rm : Selector) (disp : Word) :
    (rmInstr d mode w reg rm disp).isDirectAddress = isDirectAddress mode rm := by
  rw [← recordIsDirectAddress_instrRecord, instrRecord_rmInstr]
  rfl

theorem isDirectAddress_irInstr (w : Width) (reg : Selector) (imm : Word) :
    (irInstr w reg imm).isDirectAddress = false := by
  cases w <;> rfl

/-! ## What `decodeBytes` guarantees -/

theorem wellFormed_of_decodeBytes {policy : DirectAddressPolicy} {bytes : List Byte} {i : Instr}
    (h : decodeBytes policy bytes = .ok i) : i.wellFormed = true := by
  obtain ⟨b0, b1, rest, disp, -, -, -, hd, rfl⟩ | ⟨b0, rest, imm, -, -, hi, rfl⟩ := decodeBytes_ok h
  · exact wellFormed_rmInstr fun hm => fitsByte_of_displacement_mem8 (hm ▸ hd)
  · exact wellFormed_irInstr fun hw => fitsByte_of_immediate_byte (hw ▸ hi)

/-- No instruction is longer than the bytes it was decoded from (41_opcode_parser.md R94). -/
theorem lengthBytes_le_of_decodeBytes {policy : DirectAddressPolicy} {bytes : List Byte} {i : Instr}
    (h : decodeBytes policy bytes = .ok i) : (instrRecord i).lengthBytes ≤ bytes.length := by
  obtain ⟨b0, b1, rest, disp, rfl, -, -, hd, rfl⟩ | ⟨b0, rest, imm, rfl, -, hi, rfl⟩ := decodeBytes_ok h
  · have hlen : ¬rest.length + 2 < rmLength (modeField b1) := by simp [← displacement_none, hd]
    rw [instrRecord_rmInstr]
    exact Nat.le_of_not_lt hlen
  · have hlen : ¬rest.length + 1 < irLength (irWidth b0) := by simp [← immediate_none, hi]
    rw [instrRecord_irInstr]
    exact Nat.le_of_not_lt hlen

/-- Under `refuse` the direct-address form is never decoded (30_encoding.md R70). -/
theorem not_directAddress_of_decodeBytes {policy : DirectAddressPolicy} {bytes : List Byte} {i : Instr}
    (h : decodeBytes policy bytes = .ok i) : ¬(policy = .refuse ∧ i.isDirectAddress = true) := by
  obtain ⟨b0, b1, rest, disp, -, -, hp, -, rfl⟩ | ⟨b0, rest, imm, -, -, -, rfl⟩ := decodeBytes_ok h
  · rwa [isDirectAddress_rmInstr]
  · simp [isDirectAddress_irInstr]

/-! ## The record invariants (10_state.md R20) -/

theorem rmOperand_eq_reg_iff (r : RmRecord) : r.mode = .reg ↔ ∃ name, rmOperand r = .reg name := by
  unfold rmOperand
  cases r.mode <;> simp

theorem rmOperand_eq_mem_iff (r : RmRecord) : r.mode ≠ .reg ↔ ∃ base disp, rmOperand r = .mem base disp := by
  unfold rmOperand
  cases r.mode <;> simp

theorem recordValid_rmRecord {d : Direction} {mode : Mode} {w : Width} {reg rm : Selector} {disp : Word}
    (h0 : mode = .reg ∨ mode = .mem0 → disp = 0) (h8 : mode = .mem8 → fitsByte disp = true) :
    recordValid (rmRecord d mode w reg rm disp) := by
  have two : mode = .reg ∨ mode = .mem0 → rmLength mode = 2 := by rintro (rfl | rfl) <;> rfl
  have three : mode = .mem8 → rmLength mode = 3 := by rintro rfl; rfl
  have four : mode = .mem16 → rmLength mode = 4 := by rintro rfl; rfl
  exact ⟨rmOperand_eq_reg_iff _, rmOperand_eq_mem_iff _, two, three, four, h0,
    fun hm => signed16_range_of_fitsByte (h8 hm)⟩

theorem recordValid_irRecord {w : Width} {reg : Selector} {imm : Word} (h : w = .byte → fitsByte imm = true) :
    recordValid (irRecord w reg imm) := by
  have two : w = .byte → irLength w = 2 := by rintro rfl; rfl
  have three : w = .word → irLength w = 3 := by rintro rfl; rfl
  exact ⟨two, three, fun hw => signed16_range_of_fitsByte (h hw)⟩

theorem recordValid_of_wellFormed {i : Instr} (h : i.wellFormed = true) : recordValid (instrRecord i) := by
  cases i with
  | movRmRReg | movRmRMem0 | movRRmReg | movRRmMem0 => exact recordValid_rmRecord (fun _ => rfl) nofun
  | movRmRMem8 | movRRmMem8 => exact recordValid_rmRecord nofun fun _ => h
  | movRmRMem16 | movRRmMem16 => exact recordValid_rmRecord nofun nofun
  | movRImm8 => exact recordValid_irRecord fun _ => h
  | movRImm16 => exact recordValid_irRecord nofun

end Sys2Proof
end

section
/-! PROOFS. What one step answers in each of its cases, as equations (45_stream_driver.md R150). -/

namespace Sys2Proof.Machine

/-! ## A run that is over -/

theorem whenRunning_done {s : State} (k : Host.Outcome State Fault Refusal) (h : s.status = .done) :
    whenRunning s k = .fault .runDone := by
  simp [whenRunning, h]

theorem whenRunning_failed {s : State} {kind : ErrorKind} {info : Info} (k : Host.Outcome State Fault Refusal)
    (h : s.status = .failed kind info) : whenRunning s k = .fault .runFailed := by
  simp [whenRunning, h]

/-! ## A run that goes on -/

/-- A form without an error finds all its bytes below `N`. -/
theorem fits_of_formError_none {i : Instr} {s : State} (h : formError (instrRecord i) s = none) :
    s.pc + (instrRecord i).lengthBytes ≤ s.n := by
  have hlen := instrRecord_length i
  obtain ⟨hfit, -⟩ := (formError_none (by omega)).1 h
  omega

/-- A decoded instruction ends at or before `N` (41_opcode_parser.md R94). -/
theorem fits_of_decodeAt {s : State} {p : Nat} {i : Instr} (h : decodeAt s p = .ok i) :
    p + (instrRecord i).lengthBytes ≤ s.n := by
  have hwin := lengthBytes_le_of_decodeBytes h
  rw [length_window] at hwin
  have hlen := instrRecord_length i
  omega

/-- On the instruction decoded at the cursor, the checks that `exec` repeats never fire (log 15). -/
theorem formError_none_of_decodeAt {s : State} {i : Instr} (h : decodeAt s s.pc = .ok i) :
    formError (instrRecord i) s = none := by
  have hfit := fits_of_decodeAt h
  have hlen := instrRecord_length i
  refine (formError_none (by omega)).2 ⟨by omega, ?_⟩
  rw [recordIsDirectAddress_instrRecord]
  exact not_directAddress_of_decodeBytes h

theorem exec_of_formError_none {s : State} {i : Instr} (hs : s.status = .running)
    (he : formError (instrRecord i) s = none) :
    exec i s = .next (advance (emit s (render (instrRecord i))) (instrRecord i).lengthBytes) := by
  rw [exec_eq_consume, consume, whenRunning_running _ hs, he]

theorem step_at_end {s : State} (hs : s.status = .running) (hn : s.pc = s.n) : step s = .next (finish s) := by
  rw [step, whenRunning_running _ hs, if_pos hn]

theorem step_of_decodeAt_error {s : State} {kind : ErrorKind} (hs : s.status = .running) (hn : s.pc ≠ s.n)
    (hd : decodeAt s s.pc = .error kind) : step s = .next (takeError s kind) := by
  rw [step, whenRunning_running _ hs, if_neg hn, hd]

theorem step_of_decodeAt_ok {s : State} {i : Instr} (hs : s.status = .running) (hn : s.pc ≠ s.n)
    (hd : decodeAt s s.pc = .ok i) :
    step s = .next (advance (emit s (render (instrRecord i))) (instrRecord i).lengthBytes) := by
  rw [step, whenRunning_running _ hs, if_neg hn, hd]
  exact exec_of_formError_none hs (formError_none_of_decodeAt hd)

/-! ## The status register's fields (10_state.md R14) -/

theorem statusBits_state (st : Status) : (statusBits st).extractLsb' 0 2 = statusState st :=
  BitVec.extractLsb'_append_eq_right

theorem statusBits_kind (st : Status) : (statusBits st).extractLsb' 2 3 = statusKind st :=
  BitVec.extractLsb'_append_eq_left

theorem statusBits_failed (kind : ErrorKind) (info : Info) :
    statusBits (.failed kind info) = errorCode kind ++ 2#2 := rfl

theorem statusState_ne_three (st : Status) : statusState st ≠ 3#2 := by
  cases st <;> simp [statusState]

theorem statusKind_eq_zero {st : Status} (h : statusState st ≠ 2#2) : statusKind st = 0#3 := by
  cases st with
  | running | done => rfl
  | failed => exact absurd rfl h

/-- The exit code is zero on `DONE` alone: a failure's is a successor (60_exceptions.md R167). -/
theorem exitCode_eq_zero_iff (st : Status) : exitCode st = some 0 ↔ st = .done := by
  cases st <;> simp [exitCode, exitCodeOf]

theorem exitCode_eq_none_iff (st : Status) : exitCode st = none ↔ st = .running := by
  cases st <;> simp [exitCode]

end Sys2Proof.Machine
end

section
/-! PROOFS. The statements of 10_state.md. -/

namespace Sys2Proof.Machine

/-- Settles O11: every form is `consume` of its record, which either takes an error or emits and advances. -/
theorem execFrame : Obligations.ExecFrame := by
  intro i s t h
  rw [exec_eq_consume] at h
  obtain ⟨hs, ⟨kind, -, rfl⟩ | ⟨he, rfl⟩⟩ := consume_cases h
  · exact ⟨rfl, rfl, rfl, fun _ => rfl, .inr ⟨kind, errorInfo s kind, rfl⟩⟩
  · exact ⟨rfl, rfl, rfl, fun _ => rfl, .inl ⟨hs, rfl, rfl, fits_of_formError_none he⟩⟩

/-- Settles O13, case by case from the equations of the step. -/
theorem cursorAdvancesByLength : Obligations.CursorAdvancesByLength := by
  intro s t h
  obtain ⟨hs, -⟩ := step_cases h
  refine ⟨fun i hn hd => ?_, fun kind hn hd => ?_, fun hn => ?_⟩
  · cases h.symm.trans (step_of_decodeAt_ok hs hn hd)
    exact ⟨rfl, by simpa using instrRecord_length i, fits_of_decodeAt hd⟩
  · cases h.symm.trans (step_of_decodeAt_error hs hn hd)
    exact takeError_pc s kind
  · cases h.symm.trans (step_at_end hs hn)
    exact finish_pc s

/-- Settles O14, case by case from the equations of the step. -/
theorem outputAppendsOneLine : Obligations.OutputAppendsOneLine := by
  intro s t h
  obtain ⟨hs, -⟩ := step_cases h
  have atEnd (hn : s.pc = s.n) : t.out = s.out := by
    cases h.symm.trans (step_at_end hs hn)
    exact finish_out s
  refine ⟨fun i hn hd => ?_, ?_⟩
  · cases h.symm.trans (step_of_decodeAt_ok hs hn hd)
    rfl
  · rintro (hn | ⟨kind, hd⟩)
    · exact atEnd hn
    · by_cases hn : s.pc = s.n
      · exact atEnd hn
      · cases h.symm.trans (step_of_decodeAt_error hs hn hd)
        exact takeError_out s kind

/-- Settles O28: a decoded instruction is well formed, and that alone makes its record valid. -/
theorem decodedRecordIsValid : Obligations.DecodedRecordIsValid := by
  intro s p i h
  have hwf : i.wellFormed = true := wellFormed_of_decodeBytes h
  exact ⟨hwf, recordValid_of_wellFormed hwf, fits_of_decodeAt h⟩

/-- Settles O17: `step` and `exec` both stand under `whenRunning`. -/
theorem terminalStatusStops : Obligations.TerminalStatusStops := by
  intro s i
  rw [exec_eq_consume]
  exact ⟨fun h => ⟨whenRunning_done _ h, whenRunning_done _ h⟩,
    fun _ _ h => ⟨whenRunning_failed _ h, whenRunning_failed _ h⟩⟩

/-- Settles O45: the register's two fields are read back from its bits, then each status is looked at. -/
theorem statusEncodingAndExitCode : Obligations.StatusEncodingAndExitCode := by
  refine ⟨⟨rfl, rfl⟩, ⟨rfl, rfl, rfl, rfl⟩, fun info => ?_, fun st => ?_, fun _ => Nat.succ_ne_zero _⟩
  · simp only [statusBits_failed]
    decide
  · rw [statusBits_state, statusBits_kind]
    refine ⟨statusState_ne_three st, statusKind_eq_zero, ?_, exitCode_eq_zero_iff st, exitCode_eq_none_iff st⟩
    rintro kind info rfl
    exact ⟨rfl, rfl⟩

end Sys2Proof.Machine
end

section
/-! PROOFS. Which bytes a decode call depends on: its window, and of the window the instruction's own bytes. -/

namespace Sys2Proof

open Sys2Proof.Machine

/-! ## The two paths when they succeed, as equations -/

theorem decodeBytes_of_displacement {policy : DirectAddressPolicy} {b0 b1 : Byte} {rest : List Byte} {disp : Word}
    (hc : classify b0 = some .movRm)
    (hp : ¬(policy = .refuse ∧ isDirectAddress (modeField b1) (rmField b1) = true))
    (hd : displacement (modeField b1) rest = some disp) :
    decodeBytes policy (b0 :: b1 :: rest) =
      .ok (rmInstr (rmDirection b0) (modeField b1) (rmWidth b0) (regField b1) (rmField b1) disp) := by
  simp [decodeBytes, decodeRm, hc, hp, hd]

theorem decodeBytes_of_immediate {policy : DirectAddressPolicy} {b0 : Byte} {rest : List Byte} {imm : Word}
    (hc : classify b0 = some .movIr) (hi : immediate (irWidth b0) rest = some imm) :
    decodeBytes policy (b0 :: rest) = .ok (irInstr (irWidth b0) (irReg b0) imm) := by
  simp [decodeBytes, decodeIr, hc, hi]

/-! ## The operand bytes that are read -/

theorem displacement_take_append {mode : Mode} {bytes : List Byte} {disp : Word} (tail : List Byte)
    (h : displacement mode bytes = some disp) :
    displacement mode (bytes.take (rmLength mode - 2) ++ tail) = some disp := by
  obtain ⟨rfl, rfl⟩ | ⟨rfl, rfl⟩ | ⟨rfl, lo, _, rfl, rfl⟩ | ⟨rfl, lo, hi, _, rfl, rfl⟩ := displacement_cases h <;> rfl

theorem immediate_take_append {w : Width} {bytes : List Byte} {imm : Word} (tail : List Byte)
    (h : immediate w bytes = some imm) :
    immediate w (bytes.take (irLength w - 1) ++ tail) = some imm := by
  obtain ⟨rfl, lo, _, rfl, rfl⟩ | ⟨rfl, lo, hi, _, rfl, rfl⟩ := immediate_cases h <;> rfl

theorem lengthBytes_rmInstr (d : Direction) (mode : Mode) (w : Width) (reg rm : Selector) (disp : Word) :
    (instrRecord (rmInstr d mode w reg rm disp)).lengthBytes = rmLength mode := by
  rw [instrRecord_rmInstr]
  rfl

theorem lengthBytes_irInstr (w : Width) (reg : Selector) (imm : Word) :
    (instrRecord (irInstr w reg imm)).lengthBytes = irLength w := by
  rw [instrRecord_irInstr]
  rfl

/-- The bytes of a register/memory form: its first two, and the displacement's. -/
theorem take_rmLength (mode : Mode) (b0 b1 : Byte) (bytes : List Byte) :
    (b0 :: b1 :: bytes).take (rmLength mode) = b0 :: b1 :: bytes.take (rmLength mode - 2) := by
  cases mode <;> rfl

/-- The bytes of an immediate form: its first, and the immediate's. -/
theorem take_irLength (w : Width) (b0 : Byte) (bytes : List Byte) :
    (b0 :: bytes).take (irLength w) = b0 :: bytes.take (irLength w - 1) := by
  cases w <;> rfl

/-- An instruction's own bytes decode to it whatever follows them (20_memory.md R34). -/
theorem decodeBytes_take_append {policy : DirectAddressPolicy} {bytes : List Byte} {i : Instr} (tail : List Byte)
    (h : decodeBytes policy bytes = .ok i) :
    decodeBytes policy (bytes.take (instrRecord i).lengthBytes ++ tail) = .ok i := by
  obtain ⟨b0, b1, rest, disp, rfl, hc, hp, hd, rfl⟩ | ⟨b0, rest, imm, rfl, hc, hi, rfl⟩ := decodeBytes_ok h
  · rw [lengthBytes_rmInstr, take_rmLength]
    exact decodeBytes_of_displacement hc hp (displacement_take_append tail hd)
  · rw [lengthBytes_irInstr, take_irLength]
    exact decodeBytes_of_immediate hc (immediate_take_append tail hi)

end Sys2Proof

namespace Sys2Proof.Machine

/-- Two windows are equal when as many bytes are in reach and each of them is the same (20_memory.md R46). -/
theorem window_congr {s t : State} {p q : Nat} (hlen : min (s.n - p) 4 = min (t.n - q) 4)
    (hbytes : ∀ k, k < min (s.n - p) 4 → s.buf.read (p + k) = t.buf.read (q + k)) : window s p = window t q := by
  refine List.ext_getElem? fun k => ?_
  rw [window_getElem?, window_getElem?, ← hlen]
  split
  · rw [hbytes k ‹_›]
  · rfl

end Sys2Proof.Machine
end

section
/-! PROOFS. The statements of 20_memory.md. -/

namespace Sys2Proof.Machine

/-- Settles O12: ending the run and taking an error write only `status`, and a form that runs leaves the buffer by its
frame. -/
theorem stepNeverWritesMemory : Obligations.StepNeverWritesMemory := by
  intro s t h
  obtain ⟨-, ⟨-, rfl⟩ | ⟨-, kind, -, rfl⟩ | ⟨-, i, -, hexec⟩⟩ := step_cases h
  · exact ⟨finish_buf s, finish_n s, fun _ => rfl⟩
  · exact ⟨takeError_buf s kind, takeError_n s kind, fun _ => rfl⟩
  · obtain ⟨hbuf, hn, -, hread, -⟩ := execFrame i s t hexec
    exact ⟨hbuf, hn, hread⟩

/-- Settles O26: a decode call is a function of the policy and the window, and the two windows are equal. -/
theorem decodeDependsOnWindowOnly : Obligations.DecodeDependsOnWindowOnly := by
  intro s t p q hpolicy hlen hbytes
  rw [decodeAt, decodeAt, hpolicy, window_congr hlen hbytes]

/-- Settles O27: the length fits, and each path reads no operand byte past it. -/
theorem decodeReadsOwnBytesOnly : Obligations.DecodeReadsOwnBytesOnly :=
  fun _ _ rest _ h => ⟨lengthBytes_le_of_decodeBytes h, decodeBytes_take_append rest h⟩

end Sys2Proof.Machine
end

section
/-! PROOFS. The encoder and the decoder path by path: the operand bytes that an encoding holds, what the two paths
read back from them, and the first bytes that neither path takes. -/

namespace Sys2Proof

open Sys2Proof.Machine

/-! ## The encoding by path -/

/-- The displacement bytes of a register/memory encoding (30_encoding.md R57, R61). -/
def displacementBytes : Mode → Word → List Byte
  | .reg, _ => []
  | .mem0, _ => []
  | .mem8, disp => [lowByte disp]
  | .mem16, disp => [lowByte disp, highByte disp]

/-- The immediate bytes of an immediate encoding (30_encoding.md R59, R60). -/
def immediateBytes : Width → Word → List Byte
  | .byte, imm => [lowByte imm]
  | .word, imm => [lowByte imm, highByte imm]

theorem encode_rmInstr (d : Direction) (mode : Mode) (w : Width) (reg rm : Selector) (disp : Word) :
    encode (rmInstr d mode w reg rm disp) =
      rmFirstByte d w :: modeByte mode reg rm :: displacementBytes mode disp := by
  cases d <;> cases mode <;> rfl

theorem encode_irInstr (w : Width) (reg : Selector) (imm : Word) :
    encode (irInstr w reg imm) = irFirstByte w reg :: immediateBytes w imm := by
  cases w <;> rfl

/-! ## The operand bytes that were read are the ones that are encoded -/

theorem displacementBytes_eq_take {mode : Mode} {bytes : List Byte} {disp : Word}
    (h : displacement mode bytes = some disp) :
    displacementBytes mode disp = bytes.take (rmLength mode - 2) := by
  obtain ⟨rfl, -⟩ | ⟨rfl, -⟩ | ⟨rfl, lo, _, rfl, rfl⟩ | ⟨rfl, lo, hi, _, rfl, rfl⟩ := displacement_cases h
  · rfl
  · rfl
  · simp [displacementBytes, rmLength, lowByte_sext16]
  · simp [displacementBytes, rmLength, lowByte_le16, highByte_le16]

theorem immediateBytes_eq_take {w : Width} {bytes : List Byte} {imm : Word} (h : immediate w bytes = some imm) :
    immediateBytes w imm = bytes.take (irLength w - 1) := by
  obtain ⟨rfl, lo, _, rfl, rfl⟩ | ⟨rfl, lo, hi, _, rfl, rfl⟩ := immediate_cases h
  · simp [immediateBytes, irLength, lowByte_sext16]
  · simp [immediateBytes, irLength, lowByte_le16, highByte_le16]

/-- The bytes of a decoded instruction are exactly its encoding (30_encoding.md R71). -/
theorem encode_eq_take_of_decodeBytes {policy : DirectAddressPolicy} {bytes : List Byte} {i : Instr}
    (h : decodeBytes policy bytes = .ok i) : encode i = bytes.take (instrRecord i).lengthBytes := by
  obtain ⟨b0, b1, rest, disp, rfl, hc, -, hd, rfl⟩ | ⟨b0, rest, imm, rfl, hc, hi, rfl⟩ := decodeBytes_ok h
  · rw [lengthBytes_rmInstr, take_rmLength, encode_rmInstr, rmFirstByte_fields b0 hc, modeByte_fields,
      displacementBytes_eq_take hd]
  · rw [lengthBytes_irInstr, take_irLength, encode_irInstr, irFirstByte_fields b0 hc, immediateBytes_eq_take hi]

theorem length_encode_of_decodeBytes {policy : DirectAddressPolicy} {bytes : List Byte} {i : Instr}
    (h : decodeBytes policy bytes = .ok i) : (encode i).length = (instrRecord i).lengthBytes := by
  rw [encode_eq_take_of_decodeBytes h, List.length_take_of_le (lengthBytes_le_of_decodeBytes h)]

/-! ## The operand bytes that are encoded read back -/

theorem sext16_lowByte {v : Word} (h : fitsByte v = true) : sext16 (lowByte v) = v :=
  (of_decide_eq_true h).symm

theorem displacement_mem8_encoded {disp : Word} (rest : List Byte) (h : fitsByte disp = true) :
    displacement .mem8 (displacementBytes .mem8 disp ++ rest) = some disp :=
  congrArg some (sext16_lowByte h)

theorem displacement_mem16_encoded (disp : Word) (rest : List Byte) :
    displacement .mem16 (displacementBytes .mem16 disp ++ rest) = some disp :=
  congrArg some (le16_low_high disp)

theorem immediate_byte_encoded {imm : Word} (rest : List Byte) (h : fitsByte imm = true) :
    immediate .byte (immediateBytes .byte imm ++ rest) = some imm :=
  congrArg some (sext16_lowByte h)

theorem immediate_word_encoded (imm : Word) (rest : List Byte) :
    immediate .word (immediateBytes .word imm ++ rest) = some imm :=
  congrArg some (le16_low_high imm)

/-- A well-formed instruction belongs to one of the two paths, and its operand reads back from its operand bytes,
whatever follows them. -/
theorem path_of_wellFormed {i : Instr} (h : i.wellFormed = true) :
    (∃ d mode w reg rm disp, i = rmInstr d mode w reg rm disp ∧
      ∀ rest, displacement mode (displacementBytes mode disp ++ rest) = some disp) ∨
    (∃ w reg imm, i = irInstr w reg imm ∧ ∀ rest, immediate w (immediateBytes w imm ++ rest) = some imm) := by
  cases i with
  | movRmRReg w reg rm => exact .inl ⟨.regIsSource, .reg, w, reg, rm, 0, rfl, fun _ => rfl⟩
  | movRmRMem0 w reg rm => exact .inl ⟨.regIsSource, .mem0, w, reg, rm, 0, rfl, fun _ => rfl⟩
  | movRmRMem8 w reg rm disp =>
    exact .inl ⟨.regIsSource, .mem8, w, reg, rm, disp, rfl, fun rest => displacement_mem8_encoded rest h⟩
  | movRmRMem16 w reg rm disp =>
    exact .inl ⟨.regIsSource, .mem16, w, reg, rm, disp, rfl, displacement_mem16_encoded disp⟩
  | movRRmReg w reg rm => exact .inl ⟨.regIsDest, .reg, w, reg, rm, 0, rfl, fun _ => rfl⟩
  | movRRmMem0 w reg rm => exact .inl ⟨.regIsDest, .mem0, w, reg, rm, 0, rfl, fun _ => rfl⟩
  | movRRmMem8 w reg rm disp =>
    exact .inl ⟨.regIsDest, .mem8, w, reg, rm, disp, rfl, fun rest => displacement_mem8_encoded rest h⟩
  | movRRmMem16 w reg rm disp =>
    exact .inl ⟨.regIsDest, .mem16, w, reg, rm, disp, rfl, displacement_mem16_encoded disp⟩
  | movRImm8 reg imm => exact .inr ⟨.byte, reg, imm, rfl, fun rest => immediate_byte_encoded rest h⟩
  | movRImm16 reg imm => exact .inr ⟨.word, reg, imm, rfl, immediate_word_encoded imm⟩

/-- The direct-address form under `refuse` is refused once its mode byte is read (30_encoding.md R70). -/
theorem decodeBytes_refuse_directAddress {b0 b1 : Byte} (rest : List Byte) (hc : classify b0 = some .movRm)
    (hd : isDirectAddress (modeField b1) (rmField b1) = true) :
    decodeBytes .refuse (b0 :: b1 :: rest) = .error .invalidField := by
  simp [decodeBytes, decodeRm, hc, hd]

/-- A well-formed instruction's encoding decodes to it, whatever follows. -/
theorem decodeBytes_encode {policy : DirectAddressPolicy} {i : Instr} (rest : List Byte) (hwf : i.wellFormed = true)
    (hp : ¬(policy = .refuse ∧ i.isDirectAddress = true)) : decodeBytes policy (encode i ++ rest) = .ok i := by
  obtain ⟨d, mode, w, reg, rm, disp, rfl, hd⟩ | ⟨w, reg, imm, rfl, hi⟩ := path_of_wellFormed hwf
  · rw [isDirectAddress_rmInstr] at hp
    have h := decodeBytes_of_displacement (policy := policy) (b1 := modeByte mode reg rm)
      (rest := displacementBytes mode disp ++ rest) (disp := disp) (classify_rmFirstByte d w)
      (by rwa [modeField_modeByte, rmField_modeByte]) (by rw [modeField_modeByte, hd])
    rwa [rmDirection_rmFirstByte, rmWidth_rmFirstByte, modeField_modeByte, regField_modeByte, rmField_modeByte,
      ← List.cons_append, ← List.cons_append, ← encode_rmInstr] at h
  · have h := decodeBytes_of_immediate (policy := policy) (rest := immediateBytes w imm ++ rest) (imm := imm)
      (classify_irFirstByte w reg) (by rw [irWidth_irFirstByte, hi])
    rwa [irWidth_irFirstByte, irReg_irFirstByte, ← List.cons_append, ← encode_irInstr] at h

theorem decodeBytes_refuse_encode {i : Instr} (rest : List Byte) (hwf : i.wellFormed = true)
    (hd : i.isDirectAddress = true) : decodeBytes .refuse (encode i ++ rest) = .error .invalidField := by
  obtain ⟨d, mode, w, reg, rm, disp, rfl, -⟩ | ⟨w, reg, imm, rfl, -⟩ := path_of_wellFormed hwf
  · rw [isDirectAddress_rmInstr] at hd
    rw [encode_rmInstr]
    exact decodeBytes_refuse_directAddress _ (classify_rmFirstByte d w)
      (by rwa [modeField_modeByte, rmField_modeByte])
  · rw [isDirectAddress_irInstr] at hd
    cases hd

/-! ## The first byte -/

theorem decodeRm_ne_unrecognized (policy : DirectAddressPolicy) (b0 : Byte) (rest : List Byte) :
    decodeRm policy b0 rest ≠ .error .unrecognizedOpcode := by
  cases rest with
  | nil => simp [decodeRm]
  | cons b1 rest =>
    simp only [decodeRm]
    split
    · exact nofun
    · split <;> exact nofun

theorem decodeIr_ne_unrecognized (b0 : Byte) (rest : List Byte) :
    decodeIr b0 rest ≠ .error .unrecognizedOpcode := by
  unfold decodeIr
  split <;> simp

/-- Only classification raises `UnrecognizedOpcode` (60_exceptions.md R162). -/
theorem decodeBytes_unrecognized_iff (policy : DirectAddressPolicy) (b0 : Byte) (rest : List Byte) :
    decodeBytes policy (b0 :: rest) = .error .unrecognizedOpcode ↔ classify b0 = none := by
  simp only [decodeBytes]
  cases classify b0 with
  | none => simp
  | some op =>
    cases op with
    | movRm => simp [decodeRm_ne_unrecognized]
    | movIr => simp [decodeIr_ne_unrecognized]

/-- The two fixed patterns as two ranges of byte values (30_encoding.md R66). -/
theorem classify_eq_none_iff (b0 : Byte) :
    classify b0 = none ↔ ¬(0x88 ≤ b0.toNat ∧ b0.toNat ≤ 0x8B) ∧ ¬(0xB0 ≤ b0.toNat ∧ b0.toNat ≤ 0xBF) := by
  revert b0; decide

theorem classify_eq_movRm_iff (b0 : Byte) : classify b0 = some .movRm ↔ b0.extractLsb' 2 6 = 0b100010#6 := by
  revert b0; decide

theorem rmLength_modeField (b1 : Byte) :
    rmLength (modeField b1) =
      if b1.extractLsb' 6 2 = 0b01#2 then 3 else if b1.extractLsb' 6 2 = 0b10#2 then 4 else 2 := by
  revert b1; decide

theorem irLength_irWidth (b0 : Byte) : irLength (irWidth b0) = 2 + (b0.extractLsb' 3 1).toNat := by
  revert b0; decide

end Sys2Proof

namespace Sys2Proof.Machine

/-! ## The window at the cursor -/

theorem window_eq_cons {s : State} {p : Nat} (h : p < s.n) : ∃ rest, window s p = s.buf.read p :: rest := by
  have hfirst : (window s p)[0]? = some (s.buf.read p) := by
    rw [window_getElem?, if_pos (by omega), Nat.add_zero]
  cases hw : window s p with
  | nil => simp [hw] at hfirst
  | cons b rest => exact ⟨rest, by simpa [hw] using hfirst⟩

/-- Four bytes placed at the cursor are the window there. -/
theorem window_placeAtPc {s : State} {bytes : List Byte} (hwf : s.buf.wf = true) (hlen : bytes.length = 4) :
    window (placeAtPc s bytes) s.pc = bytes := by
  have hmin : min ((placeAtPc s bytes).n - s.pc) 4 = bytes.length := by rw [placeAtPc_n]; omega
  refine List.ext_getElem? fun k => ?_
  rw [window_getElem?, hmin, placeAtPc_buf, read_writeBytes _ _ _ hwf]
  split
  · rename_i hk
    simp [hk]
  · rw [List.getElem?_eq_none (by omega)]

/-- The step is `exec` of the instruction decoded at the cursor (log 15). -/
theorem step_eq_exec_of_decodeAt {s : State} {i : Instr} (hs : s.status = .running) (hd : decodeAt s s.pc = .ok i) :
    step s = exec i s := by
  have hfit := fits_of_decodeAt hd
  have hlen := instrRecord_length i
  rw [step_of_decodeAt_ok hs (by omega) hd, exec_of_formError_none hs (formError_none_of_decodeAt hd)]

theorem decodeBytes_of_decodeTableWord {nbits w : Nat} {i : Instr} (h : decodeTableWord nbits w = some i) :
    decodeBytes Config.defaultPolicy (tableBytes nbits w) = .ok i := by
  unfold decodeTableWord at h
  split at h
  · rwa [← Option.some.inj h]
  · cases h

end Sys2Proof.Machine
end

section
/-! PROOFS. The statements of 30_encoding.md. -/

namespace Sys2Proof.Machine

/-- Settles O30: each well-formed instruction belongs to one of the two paths, which reads its own fields back. -/
theorem decodeOfEncode : Obligations.DecodeOfEncode := by
  intro policy i rest hwf
  refine ⟨decodeBytes_encode rest hwf, ?_⟩
  rintro ⟨rfl, hd⟩
  exact decodeBytes_refuse_encode rest hwf hd

/-- Settles O31: the fields of the first bytes and the operand bytes, put together again, are the bytes read. -/
theorem encodeOfDecode : Obligations.EncodeOfDecode :=
  fun _ _ _ h => ⟨encode_eq_take_of_decodeBytes h, length_encode_of_decodeBytes h⟩

/-- Settles O21: only classification raises the error, and the step that takes it writes `status` alone. -/
theorem unrecognizedFirstByte : Obligations.UnrecognizedFirstByte := by
  refine ⟨fun policy b0 rest => (decodeBytes_unrecognized_iff policy b0 rest).trans (classify_eq_none_iff b0), ?_⟩
  intro s hs hn hrm hir
  obtain ⟨rest, hw⟩ := window_eq_cons hn
  have hd : decodeAt s s.pc = .error .unrecognizedOpcode := by
    rw [decodeAt, hw, decodeBytes_unrecognized_iff, classify_eq_none_iff]
    exact ⟨hrm, hir⟩
  exact ⟨_, _, step_of_decodeAt_error hs hn.ne hd, takeError_status .., takeError_pc .., takeError_out ..⟩

/-- Settles O29, path by path: the class of the first byte tells the path, and the path's length its field. -/
theorem lengthIsAFunctionOfHead : Obligations.LengthIsAFunctionOfHead := by
  intro policy b0 b1 rest i h
  obtain ⟨b0, b1, rest, disp, hb, hc, -, -, rfl⟩ | ⟨b0, rest, imm, hb, hc, -, rfl⟩ := decodeBytes_ok h
  · cases hb
    rw [if_pos ((classify_eq_movRm_iff b0).1 hc), lengthBytes_rmInstr, rmLength_modeField]
  · cases hb
    rw [if_neg (by simp [← classify_eq_movRm_iff, hc]), lengthBytes_irInstr, irLength_irWidth]

/-- Settles O33: the four bytes placed are the window that the step decodes. -/
theorem fetchWordRunsTableInstruction : Obligations.FetchWordRunsTableInstruction := by
  intro s nbits w i hwf hpolicy hi
  refine step_eq_exec_of_decodeAt (placeAtPc_status ..) ?_
  rw [decodeAt, State.withFetchWord, placeAtPc_policy, placeAtPc_pc, hpolicy, window_placeAtPc hwf rfl]
  exact decodeBytes_of_decodeTableWord hi

end Sys2Proof.Machine
end

section
/-! PROOFS. The window as consecutive reads of the buffer, and the pseudocode's arithmetic on bytes as the decoder's bit
fields (41_opcode_parser.md R90, 42_mov_rm_reg.md R100, 43_mov_imm_reg.md R120). -/

namespace Sys2Proof.Machine

/-! ## Consecutive reads -/

/-- The `k` bytes at `a`, `a + 1`, … -/
def Memory.readBytes (m : Memory) : Nat → Nat → List Byte
  | _, 0 => []
  | a, k + 1 => m.read a :: m.readBytes (a + 1) k

@[simp] theorem readBytes_zero (m : Memory) (a : Nat) : m.readBytes a 0 = [] := rfl

@[simp] theorem readBytes_succ (m : Memory) (a k : Nat) :
    m.readBytes a (k + 1) = m.read a :: m.readBytes (a + 1) k := rfl

@[simp] theorem length_readBytes (m : Memory) (a k : Nat) : (m.readBytes a k).length = k := by
  induction k generalizing a with
  | zero => rfl
  | succ k ih => simp [ih]

theorem readBytes_getElem? (m : Memory) (a k j : Nat) :
    (m.readBytes a k)[j]? = if j < k then some (m.read (a + j)) else none := by
  induction k generalizing a j with
  | zero => rfl
  | succ k ih =>
    cases j with
    | zero => simp
    | succ j => simp [ih, Nat.add_assoc, Nat.add_comm 1 j]

theorem readBytes_add (m : Memory) (a j k : Nat) :
    m.readBytes a (j + k) = m.readBytes a j ++ m.readBytes (a + j) k := by
  induction j generalizing a with
  | zero => simp
  | succ j ih => rw [Nat.succ_add, readBytes_succ, readBytes_succ, ih, List.cons_append, Nat.add_right_comm]; rfl

/-- Bytes that agree with the buffer offset by offset are what is read there. -/
theorem eq_readBytes {m : Memory} {a : Nat} {bytes : List Byte}
    (h : ∀ k, k < bytes.length → bytes[k]? = some (m.read (a + k))) : bytes = m.readBytes a bytes.length := by
  refine List.ext_getElem? fun k => ?_
  rw [readBytes_getElem?]
  split
  · exact h k ‹_›
  · exact List.getElem?_eq_none (Nat.le_of_not_lt ‹_›)

/-- Two stretches laid end to end are each read at its own offset. -/
theorem readBytes_of_append {m : Memory} {a : Nat} {xs ys : List Byte}
    (h : xs ++ ys = m.readBytes a (xs ++ ys).length) :
    xs = m.readBytes a xs.length ∧ ys = m.readBytes (a + xs.length) ys.length := by
  rw [List.length_append, readBytes_add] at h
  exact List.append_inj h (length_readBytes ..).symm

theorem window_eq_readBytes (s : State) (p : Nat) : window s p = s.buf.readBytes p (min (s.n - p) 4) :=
  List.ext_getElem? fun k => by rw [window_getElem?, readBytes_getElem?]

/-! ## Operands read from the buffer -/

/-- The displacement whose bytes stand at `a`. -/
def displacementAt (m : Memory) (a : Nat) : Mode → Word
  | .reg => 0
  | .mem0 => 0
  | .mem8 => sext16 (m.read a)
  | .mem16 => le16 (m.read a) (m.read (a + 1))

/-- The immediate whose bytes stand at `a`. -/
def immediateAt (m : Memory) (a : Nat) : Width → Word
  | .byte => sext16 (m.read a)
  | .word => le16 (m.read a) (m.read (a + 1))

theorem displacement_readBytes (mode : Mode) (m : Memory) (a k : Nat) :
    displacement mode (m.readBytes a k) =
      if k + 2 < rmLength mode then none else some (displacementAt m a mode) := by
  cases mode with
  | reg | mem0 => simp [displacement, rmLength, displacementAt]
  | mem8 =>
    rcases k with _ | k
    · rfl
    · rw [if_neg (by rw [rmLength]; omega)]
      rfl
  | mem16 =>
    rcases k with _ | _ | k
    · rfl
    · rfl
    · rw [if_neg (by rw [rmLength]; omega)]
      rfl

theorem immediate_readBytes (w : Width) (m : Memory) (a k : Nat) :
    immediate w (m.readBytes a k) =
      if k + 1 < irLength w then none else some (immediateAt m a w) := by
  cases w with
  | byte =>
    rcases k with _ | k
    · rfl
    · rw [if_neg (by rw [irLength]; omega)]
      rfl
  | word =>
    rcases k with _ | _ | k
    · rfl
    · rfl
    · rw [if_neg (by rw [irLength]; omega)]
      rfl

end Sys2Proof.Machine

namespace Sys2Proof.Safety

open Sys2Proof.Machine

/-! ## Slices as bit fields -/

theorem slice_eq_movRm_iff (b0 : Byte) : slice b0 7 2 = 0b100010 ↔ classify b0 = some .movRm := by
  revert b0; decide

theorem slice_eq_movIr_iff (b0 : Byte) : slice b0 7 4 = 0b1011 ↔ classify b0 = some .movIr := by
  revert b0; decide

theorem slice_direction (b0 : Byte) :
    (if slice b0 1 1 = 1 then Direction.regIsDest else .regIsSource) = rmDirection b0 := by
  revert b0; decide

theorem slice_rmWidth (b0 : Byte) : (if slice b0 0 0 = 1 then Width.word else .byte) = rmWidth b0 := by
  revert b0; decide

theorem slice_regField (b1 : Byte) : BitVec.ofNat 3 (slice b1 5 3) = regField b1 := by
  revert b1; decide

theorem slice_rmField (b1 : Byte) : BitVec.ofNat 3 (slice b1 2 0) = rmField b1 := by
  revert b1; decide

theorem slice_isDirectAddress (b1 : Byte) :
    slice b1 7 6 = 0 ∧ slice b1 2 0 = 6 ↔ isDirectAddress (modeField b1) (rmField b1) = true := by
  revert b1; decide

theorem slice_irWidth (b0 : Byte) : (if slice b0 3 3 = 1 then Width.word else .byte) = irWidth b0 := by
  revert b0; decide

theorem slice_irWidth_byte_iff (b0 : Byte) : slice b0 3 3 = 0 ↔ irWidth b0 = .byte := by
  revert b0; decide

theorem slice_irLength (b0 : Byte) : 2 + slice b0 3 3 = irLength (irWidth b0) := by
  revert b0; decide

theorem slice_irReg (b0 : Byte) : BitVec.ofNat 3 (slice b0 2 0) = irReg b0 := by
  revert b0; decide

theorem refMode_eq (b1 : Byte) : refMode b1 = modeField b1 := by
  revert b1; decide

theorem refLength_eq (b1 : Byte) : refLength b1 = rmLength (modeField b1) := by
  revert b1; decide

/-- The pseudocode's 16-bit read is low byte first (20_memory.md R31). -/
theorem memRead2_eq_le16 (s : State) (a : Nat) : memRead2 s a = le16 (s.buf.read a) (s.buf.read (a + 1)) := by
  rw [memRead2, ← le16_toNat, BitVec.ofNat_toNat, BitVec.setWidth_eq]

/-! ## The pseudocode in the decoder's terms -/

theorem refRecordRm_eq (s : State) (p : Nat) (b0 b1 : Byte) (mode : Mode) :
    refRecordRm s p b0 b1 mode (rmLength mode) =
      rmRecord (rmDirection b0) mode (rmWidth b0) (regField b1) (rmField b1) (displacementAt s.buf (p + 2) mode) := by
  simp only [refRecordRm, slice_direction, slice_rmWidth, slice_regField, slice_rmField]
  cases mode <;> simp [rmRecord, displacementAt, sext16_eq_signExtend, memRead2_eq_le16]

theorem refDecodeRm_of_lt_two {s : State} {p : Nat} (b0 : Byte) (h : s.n - p < 2) :
    refDecodeRm s p b0 = .error .truncatedStream := if_pos h

/-- `decode_rm` once its mode byte is there (42_mov_rm_reg.md R100). -/
theorem refDecodeRm_of_two_le {s : State} {p : Nat} (b0 : Byte) (h : 2 ≤ s.n - p) :
    refDecodeRm s p b0 =
      let b1 := s.buf.read (p + 1)
      if s.policy = .refuse ∧ isDirectAddress (modeField b1) (rmField b1) = true then .error .invalidField
      else if s.n - p < rmLength (modeField b1) then .error .truncatedStream
      else .ok (rmRecord (rmDirection b0) (modeField b1) (rmWidth b0) (regField b1) (rmField b1)
        (displacementAt s.buf (p + 2) (modeField b1))) := by
  rw [refDecodeRm, if_neg (Nat.not_lt.2 h)]
  simp only [memRead1, slice_isDirectAddress, refLength_eq, refMode_eq, refRecordRm_eq]

theorem refDecodeIr_eq (s : State) (p : Nat) (b0 : Byte) :
    refDecodeIr s p b0 =
      if s.n - p < irLength (irWidth b0) then .error .truncatedStream
      else .ok (irRecord (irWidth b0) (irReg b0) (immediateAt s.buf (p + 1) (irWidth b0))) := by
  simp only [refDecodeIr, slice_irLength, slice_irWidth, slice_irWidth_byte_iff, slice_irReg, memRead2_eq_le16]
  cases irWidth b0 <;> simp [irRecord, immediateAt, sext16_eq_signExtend]

/-! ## The two paths on the window

After the first byte `k` bytes are in the window: all that remain, or the three that the longest form needs. -/

theorem decodeRm_readBytes {s : State} {p k : Nat} (b0 : Byte) (hk : k = min (s.n - p) 4 - 1) :
    (decodeRm s.policy b0 (s.buf.readBytes (p + 1) k)).map instrRecord = refDecodeRm s p b0 := by
  cases k with
  | zero =>
    rw [refDecodeRm_of_lt_two b0 (by omega)]
    rfl
  | succ k =>
    have hlen (mode : Mode) : s.n - p < rmLength mode ↔ k + 2 < rmLength mode := by
      cases mode <;> simp only [rmLength] <;> omega
    rw [refDecodeRm_of_two_le b0 (by omega)]
    simp only [readBytes_succ, decodeRm, displacement_readBytes, Bool.and_eq_true, decide_eq_true_eq, hlen]
    split
    · rfl
    · by_cases hshort : k + 2 < rmLength (modeField (s.buf.read (p + 1)))
      · simp only [if_pos hshort]
        rfl
      · simp only [if_neg hshort]
        refine congrArg Except.ok ((instrRecord_rmInstr ..).trans ?_)
        cases modeField (s.buf.read (p + 1)) <;> rfl

theorem decodeIr_readBytes {s : State} {p k : Nat} (b0 : Byte) (hk : k = min (s.n - p) 4 - 1) :
    (decodeIr b0 (s.buf.readBytes (p + 1) k)).map instrRecord = refDecodeIr s p b0 := by
  have hlen : s.n - p < irLength (irWidth b0) ↔ k + 1 < irLength (irWidth b0) := by
    cases irWidth b0 <;> simp only [irLength] <;> omega
  simp only [refDecodeIr_eq, hlen, decodeIr, immediate_readBytes]
  by_cases hshort : k + 1 < irLength (irWidth b0)
  · simp only [if_pos hshort]
    rfl
  · simp only [if_neg hshort]
    exact congrArg Except.ok (instrRecord_irInstr ..)

end Sys2Proof.Safety
end

section
/-! PROOFS. Runs: a running state's step always answers, a run is taken apart at its first step, and encodings laid end
to end run to `DONE`. -/

namespace Sys2Proof.Machine

open Sys2Proof.Safety

/-! ## A run goes on -/

theorem consume_answers {s : State} (r : Record) (hs : s.status = .running) : ∃ t, consume r s = .next t := by
  rw [consume, whenRunning_running _ hs]
  split <;> exact ⟨_, rfl⟩

theorem exec_answers {s : State} (i : Instr) (hs : s.status = .running) : ∃ t, exec i s = .next t := by
  rw [exec_eq_consume]
  exact consume_answers (instrRecord i) hs

theorem step_answers {s : State} (hs : s.status = .running) : ∃ t, step s = .next t := by
  by_cases hn : s.pc = s.n
  · exact ⟨_, step_at_end hs hn⟩
  · cases hd : decodeAt s s.pc with
    | ok i => exact ⟨_, step_of_decodeAt_ok hs hn hd⟩
    | error kind => exact ⟨_, step_of_decodeAt_error hs hn hd⟩

theorem run_succ_eq_next_iff (M : Host.Core) (k : Nat) (s u : M.State) :
    M.run (k + 1) s = .next u ↔ ∃ t, M.step s = .next t ∧ M.run k t = .next u := by
  rw [Host.Core.run]
  cases M.step s <;> simp

/-- A run of `k + 1` steps is one step and a run of `k` (45_stream_driver.md R157). -/
theorem runsTo_succ_iff {k : Nat} {s u : State} : runsTo (k + 1) s u ↔ ∃ t, step s = .next t ∧ runsTo k t u :=
  run_succ_eq_next_iff Sys2Proof.core k s u

/-! ## The encoding at the cursor -/

theorem length_encode (i : Instr) : (encode i).length = (instrRecord i).lengthBytes := by
  cases i <;> rfl

/-- The encoding of an instruction that stands below `N` decodes to it. -/
theorem decodeAt_of_readBytes {s : State} {p : Nat} {i : Instr} (hwf : i.wellFormed = true)
    (hp : ¬(s.policy = .refuse ∧ i.isDirectAddress = true)) (hbytes : encode i = s.buf.readBytes p (encode i).length)
    (hfit : p + (encode i).length ≤ s.n) : decodeAt s p = .ok i := by
  have hmin : min (s.n - p) 4 = (encode i).length + (min (s.n - p) 4 - (encode i).length) := by
    have := length_encode i
    have := instrRecord_length i
    omega
  rw [decodeAt, window_eq_readBytes, hmin, readBytes_add, ← hbytes]
  exact decodeBytes_encode _ hwf hp

/-- Encodings laid end to end from the cursor to `N`: each step leaves the rest of them so, and the last one ends it
(41_opcode_parser.md R95, 45_stream_driver.md R152). -/
theorem runsTo_done_of_encodings (is : List Instr) (s : State) (hs : s.status = .running)
    (his : ∀ i ∈ is, i.wellFormed = true ∧ ¬(s.policy = .refuse ∧ i.isDirectAddress = true))
    (hn : s.n = s.pc + (is.flatMap encode).length)
    (hbytes : is.flatMap encode = s.buf.readBytes s.pc (is.flatMap encode).length) :
    runsTo (is.length + 1) s
      { s with pc := s.n, status := .done, out := s.out ++ is.map fun i => render (instrRecord i) } := by
  induction is generalizing s with
  | nil =>
    have hpc : s.pc = s.n := hn.symm
    have hend : finish s = { s with pc := s.n, status := .done, out := s.out ++ [] } := by simp [finish, hpc]
    exact runsTo_succ_iff.2 ⟨_, step_at_end hs hpc, congrArg Host.Outcome.next hend⟩
  | cons i is ih =>
    rw [List.flatMap_cons] at hn hbytes
    rw [List.length_append] at hn
    obtain ⟨hwf, hp⟩ := his i (by simp)
    obtain ⟨hi, hrest⟩ := readBytes_of_append hbytes
    have hd : decodeAt s s.pc = .ok i := decodeAt_of_readBytes hwf hp hi (by omega)
    have hlen := length_encode i
    have := instrRecord_length i
    refine runsTo_succ_iff.2 ⟨_, step_of_decodeAt_ok hs (by omega) hd, ?_⟩
    rw [← hlen]
    have h := ih (advance (emit s (render (instrRecord i))) (encode i).length) hs
      (fun j hj => his j (List.mem_cons_of_mem i hj)) (hn.trans (Nat.add_assoc ..).symm) hrest
    simpa [emit, advance] using h

end Sys2Proof.Machine
end

section
/-! PROOFS. The statements of 41_opcode_parser.md. -/

namespace Sys2Proof.Machine

open Sys2Proof.Safety

/-- Settles O25: the window is the first byte and the reads after it, and each path agrees with its pseudocode there. -/
theorem decoderRefinesPseudocode : Obligations.DecoderRefinesPseudocode := by
  intro s p
  rw [decodeAt, window_eq_readBytes, refDecode]
  cases hk : min (s.n - p) 4 with
  | zero =>
    rw [if_pos (by omega)]
    rfl
  | succ k =>
    have hk' : k = min (s.n - p) 4 - 1 := by omega
    rw [if_neg (by omega), readBytes_succ]
    simp only [decodeBytes, slice_eq_movRm_iff, slice_eq_movIr_iff, memRead1]
    cases classify (s.buf.read p) with
    | none => rfl
    | some op =>
      cases op with
      | movRm => exact decodeRm_readBytes _ hk'
      | movIr => exact decodeIr_readBytes _ hk'

/-- Settles O47, by induction on the instructions: the first one's encoding decodes to it, and one step leaves the
others from the cursor to `N`. -/
theorem encodingsRunToDone : Obligations.EncodingsRunToDone :=
  fun is s hs his hn hbytes => runsTo_done_of_encodings is s hs his hn (eq_readBytes hbytes)

/-- Settles O18: under the enable, each branch of the step and of `consume` answers a next state. -/
theorem runningNeverStops : Obligations.RunningNeverStops :=
  fun _ i hs => ⟨step_answers hs, exec_answers i hs⟩

end Sys2Proof.Machine
end

section
/-! PROOFS. One register/memory form, for both directions: what its two first bytes decode to in each mode, and what
`exec` answers when its bytes are there, when they are not, and when the policy refuses it. -/

namespace Sys2Proof

/-! ## The two first bytes as the spec writes them (30_encoding.md R54) -/

theorem rmFirstByte_regIsSource (w : Width) : rmFirstByte .regIsSource w = 0b1000100#7 ++ w.bit := by
  cases w <;> rfl

theorem rmFirstByte_regIsDest (w : Width) : rmFirstByte .regIsDest w = 0b1000101#7 ++ w.bit := by
  cases w <;> rfl

theorem isDirectAddress_mem0_iff (rm : Selector) : isDirectAddress .mem0 rm = true ↔ rm = 6 := by
  simp [isDirectAddress]

theorem le16_eq_ofNat (lo hi : Byte) : le16 lo hi = BitVec.ofNat 16 (lo.toNat + 256 * hi.toNat) := by
  rw [← le16_toNat, BitVec.ofNat_toNat, BitVec.setWidth_eq]

/-! ## Decoding in each mode -/

/-- The two first bytes give their own fields back, so the path succeeds where the displacement is there. -/
theorem decodeBytes_rm {policy : DirectAddressPolicy} {mode : Mode} {rm : Selector} {rest : List Byte} {disp : Word}
    (d : Direction) (w : Width) (reg : Selector) (hp : ¬(policy = .refuse ∧ isDirectAddress mode rm = true))
    (hd : displacement mode rest = some disp) :
    decodeBytes policy (rmFirstByte d w :: modeByte mode reg rm :: rest) = .ok (rmInstr d mode w reg rm disp) := by
  have h := decodeBytes_of_displacement (b1 := modeByte mode reg rm) (classify_rmFirstByte d w)
    (by rwa [modeField_modeByte, rmField_modeByte]) (by rwa [modeField_modeByte])
  rwa [rmDirection_rmFirstByte, rmWidth_rmFirstByte, modeField_modeByte, regField_modeByte, rmField_modeByte] at h

theorem decodeBytes_reg (policy : DirectAddressPolicy) (d : Direction) (w : Width) (reg rm : Selector)
    (rest : List Byte) :
    decodeBytes policy (rmFirstByte d w :: modeByte .reg reg rm :: rest) = .ok (rmInstr d .reg w reg rm 0) :=
  decodeBytes_rm d w reg nofun rfl

theorem decodeBytes_mem0 (policy : DirectAddressPolicy) (d : Direction) (w : Width) (reg rm : Selector)
    (rest : List Byte) :
    decodeBytes policy (rmFirstByte d w :: modeByte .mem0 reg rm :: rest) =
      if policy = .refuse ∧ rm = 6 then .error .invalidField else .ok (rmInstr d .mem0 w reg rm 0) := by
  split
  · rename_i hp
    obtain ⟨rfl, rfl⟩ := hp
    exact decodeBytes_refuse_directAddress rest (classify_rmFirstByte d w)
      (by rw [modeField_modeByte, rmField_modeByte, isDirectAddress_mem0_iff])
  · exact decodeBytes_rm d w reg (by rwa [isDirectAddress_mem0_iff]) rfl

theorem decodeBytes_mem8 (policy : DirectAddressPolicy) (d : Direction) (w : Width) (reg rm : Selector) (lo : Byte)
    (rest : List Byte) :
    decodeBytes policy (rmFirstByte d w :: modeByte .mem8 reg rm :: lo :: rest) =
      .ok (rmInstr d .mem8 w reg rm (lo.signExtend 16)) :=
  decodeBytes_rm d w reg nofun (congrArg some (sext16_eq_signExtend lo))

theorem decodeBytes_mem16 (policy : DirectAddressPolicy) (d : Direction) (w : Width) (reg rm : Selector)
    (lo hi : Byte) (rest : List Byte) :
    decodeBytes policy (rmFirstByte d w :: modeByte .mem16 reg rm :: lo :: hi :: rest) =
      .ok (rmInstr d .mem16 w reg rm (BitVec.ofNat 16 (lo.toNat + 256 * hi.toNat))) :=
  decodeBytes_rm d w reg nofun (congrArg some (le16_eq_ofNat lo hi))

end Sys2Proof

namespace Sys2Proof.Machine

/-! ## The three ways a form ends -/

/-- The direct-address form is two bytes long: whoever is refused had all its bytes (60_exceptions.md R168). -/
theorem lengthBytes_of_isDirectAddress {i : Instr} (h : i.isDirectAddress = true) :
    (instrRecord i).lengthBytes = 2 := by
  cases i with
  | movRmRMem0 | movRRmMem0 => rfl
  | _ => cases h

theorem formError_of_short {i : Instr} {s : State} (h : s.n - s.pc < (instrRecord i).lengthBytes) :
    formError (instrRecord i) s = some .truncatedStream := by
  by_cases htwo : avail s s.pc < 2
  · rw [formError, if_pos htwo]
  · have hdirect : i.isDirectAddress = false :=
      Bool.eq_false_iff.2 fun hd => htwo (lengthBytes_of_isDirectAddress hd ▸ h)
    rw [formError, if_neg htwo, recordIsDirectAddress_instrRecord, hdirect, Bool.and_false,
      if_neg Bool.false_ne_true]
    exact if_pos h

theorem formError_of_refused {i : Instr} {s : State} (htwo : s.pc + 2 ≤ s.n) (hp : s.policy = .refuse)
    (hd : i.isDirectAddress = true) : formError (instrRecord i) s = some .invalidField := by
  rw [formError, avail, if_neg (by omega), recordIsDirectAddress_instrRecord, hp, hd]
  rfl

theorem exec_of_formError {i : Instr} {s : State} {kind : ErrorKind} (hs : s.status = .running)
    (he : formError (instrRecord i) s = some kind) : exec i s = .next (takeError s kind) := by
  rw [exec_eq_consume, consume, whenRunning_running _ hs, he]

/-- With all its bytes there and nothing refused, a form appends its line and moves the cursor past them. -/
theorem exec_of_fits {i : Instr} {s : State} (hs : s.status = .running)
    (hfit : s.pc + (instrRecord i).lengthBytes ≤ s.n) (hp : ¬(s.policy = .refuse ∧ i.isDirectAddress = true)) :
    exec i s = .next { s with
      out := s.out ++ [render (instrRecord i)], pc := s.pc + (instrRecord i).lengthBytes } := by
  have hlen := instrRecord_length i
  refine exec_of_formError_none hs ((formError_none (by omega)).2 ⟨by omega, ?_⟩)
  rwa [recordIsDirectAddress_instrRecord]

theorem exec_of_short {i : Instr} {s : State} (hs : s.status = .running)
    (h : s.n - s.pc < (instrRecord i).lengthBytes) : exec i s = .next (takeError s .truncatedStream) :=
  exec_of_formError hs (formError_of_short h)

theorem exec_of_refused {i : Instr} {s : State} (hs : s.status = .running) (htwo : s.pc + 2 ≤ s.n)
    (hp : s.policy = .refuse) (hd : i.isDirectAddress = true) : exec i s = .next (takeError s .invalidField) :=
  exec_of_formError hs (formError_of_refused htwo hp hd)

/-! ## The operands of a register/memory record (42_mov_rm_reg.md R109) -/

theorem operands_rmRecord (d : Direction) (mode : Mode) (w : Width) (reg rm : Selector) (disp : Word) :
    operands (rmRecord d mode w reg rm disp) =
      byDirection d (.reg (regName w reg))
        (if mode = .reg then .reg (regName w rm) else .mem (eaBase rm) disp.toInt) := by
  rw [← signed16_eq_toInt]
  cases mode <;> rfl

theorem byDirection_regIsDest (regOp rmOp : Operand) :
    byDirection .regIsDest regOp rmOp = (byDirection .regIsSource regOp rmOp).swap := rfl

end Sys2Proof.Machine
end

section
/-! PROOFS. The statements of 42_mov_rm_reg.md. -/

namespace Sys2Proof.Machine

/-- Settles O1: the mode's decode, and the form's completion and error. -/
theorem rmRRegForm : Obligations.RmRRegForm := by
  intro policy w reg rm rest s
  rw [← rmFirstByte_regIsSource]
  exact ⟨decodeBytes_reg .., rfl, fun hs hfit => exec_of_fits hs hfit nofun,
    fun hs hshort => ⟨_, _, exec_of_short hs hshort, takeError_status ..⟩⟩

/-- Settles O2: as O1, with `rm` = 6 refused in the decode and in `exec` alike. -/
theorem rmRMem0Form : Obligations.RmRMem0Form := by
  intro policy w reg rm rest s
  rw [← rmFirstByte_regIsSource]
  have hdirect := isDirectAddress_mem0_iff rm
  exact ⟨decodeBytes_mem0 .., rfl, fun hs hfit hp => exec_of_fits hs hfit (mt (And.imp_right hdirect.1) hp),
    fun hs htwo hp hrm => ⟨_, exec_of_refused hs htwo hp (hdirect.2 hrm)⟩,
    fun hs hshort => ⟨_, exec_of_short hs hshort⟩⟩

/-- Settles O3: the mode's decode, and the form's completion and error. -/
theorem rmRMem8Form : Obligations.RmRMem8Form := by
  intro policy w reg rm lo rest disp s
  rw [← rmFirstByte_regIsSource, ← signed16_eq_toInt]
  exact ⟨decodeBytes_mem8 .., rfl, fun hs hfit => exec_of_fits hs hfit nofun,
    fun hs hshort => ⟨_, exec_of_short hs hshort⟩⟩

/-- Settles O4: the mode's decode, and the form's completion and error. -/
theorem rmRMem16Form : Obligations.RmRMem16Form := by
  intro policy w reg rm lo hi rest disp s
  rw [← rmFirstByte_regIsSource, ← signed16_eq_toInt]
  exact ⟨decodeBytes_mem16 .., rfl, fun hs hfit => exec_of_fits hs hfit nofun,
    fun hs hshort => ⟨_, exec_of_short hs hshort⟩⟩

/-- Settles O5: as O1 with the D bit set. -/
theorem rRmRegForm : Obligations.RRmRegForm := by
  intro policy w reg rm rest s
  rw [← rmFirstByte_regIsDest]
  exact ⟨decodeBytes_reg .., rfl, fun hs hfit => exec_of_fits hs hfit nofun,
    fun hs hshort => ⟨_, _, exec_of_short hs hshort, takeError_status ..⟩⟩

/-- Settles O6: as O2 with the D bit set. -/
theorem rRmMem0Form : Obligations.RRmMem0Form := by
  intro policy w reg rm rest s
  rw [← rmFirstByte_regIsDest]
  have hdirect := isDirectAddress_mem0_iff rm
  exact ⟨decodeBytes_mem0 .., rfl, fun hs hfit hp => exec_of_fits hs hfit (mt (And.imp_right hdirect.1) hp),
    fun hs htwo hp hrm => ⟨_, exec_of_refused hs htwo hp (hdirect.2 hrm)⟩,
    fun hs hshort => ⟨_, exec_of_short hs hshort⟩⟩

/-- Settles O7: as O3 with the D bit set. -/
theorem rRmMem8Form : Obligations.RRmMem8Form := by
  intro policy w reg rm lo rest disp s
  rw [← rmFirstByte_regIsDest, ← signed16_eq_toInt]
  exact ⟨decodeBytes_mem8 .., rfl, fun hs hfit => exec_of_fits hs hfit nofun,
    fun hs hshort => ⟨_, exec_of_short hs hshort⟩⟩

/-- Settles O8: as O4 with the D bit set. -/
theorem rRmMem16Form : Obligations.RRmMem16Form := by
  intro policy w reg rm lo hi rest disp s
  rw [← rmFirstByte_regIsDest, ← signed16_eq_toInt]
  exact ⟨decodeBytes_mem16 .., rfl, fun hs hfit => exec_of_fits hs hfit nofun,
    fun hs hshort => ⟨_, exec_of_short hs hshort⟩⟩

/-- Settles O32: ten closed byte strings, each run through the decoder. -/
theorem specWordsDecode : Obligations.SpecWordsDecode :=
  ⟨rfl, rfl, rfl, rfl, rfl, rfl, rfl, rfl, rfl, rfl⟩

/-- Settles O40: the operands of a record are its direction's order of two operands that do not depend on it. -/
theorem memoryOperandIgnoresDirection : Obligations.MemoryOperandIgnoresDirection := by
  intro mode w reg rm disp
  rw [operands_rmRecord, operands_rmRecord]
  exact ⟨byDirection_regIsDest .., rfl, rfl⟩

end Sys2Proof.Machine
end

section
/-! PROOFS. The statements of 43_mov_imm_reg.md, after what the immediate path decodes at each width. -/

namespace Sys2Proof

/-! ## The first byte as the spec writes it (30_encoding.md R58) -/

theorem irFirstByte_byte (reg : Selector) : irFirstByte .byte reg = 0b10110#5 ++ reg := rfl

theorem irFirstByte_word (reg : Selector) : irFirstByte .word reg = 0b10111#5 ++ reg := rfl

/-! ## Decoding at each width -/

/-- The first byte gives its own fields back, so the path succeeds where the immediate is there. -/
theorem decodeBytes_ir (policy : DirectAddressPolicy) {w : Width} {rest : List Byte} {imm : Word} (reg : Selector)
    (hi : immediate w rest = some imm) :
    decodeBytes policy (irFirstByte w reg :: rest) = .ok (irInstr w reg imm) := by
  have h := decodeBytes_of_immediate (policy := policy) (classify_irFirstByte w reg)
    (by rwa [irWidth_irFirstByte])
  rwa [irWidth_irFirstByte, irReg_irFirstByte] at h

theorem decodeBytes_imm8 (policy : DirectAddressPolicy) (reg : Selector) (lo : Byte) (rest : List Byte) :
    decodeBytes policy (irFirstByte .byte reg :: lo :: rest) = .ok (.movRImm8 reg (lo.signExtend 16)) :=
  decodeBytes_ir policy reg (congrArg some (sext16_eq_signExtend lo))

theorem decodeBytes_imm16 (policy : DirectAddressPolicy) (reg : Selector) (lo hi : Byte) (rest : List Byte) :
    decodeBytes policy (irFirstByte .word reg :: lo :: hi :: rest) =
      .ok (.movRImm16 reg (BitVec.ofNat 16 (lo.toNat + 256 * hi.toNat))) :=
  decodeBytes_ir policy reg (congrArg some (le16_eq_ofNat lo hi))

end Sys2Proof

namespace Sys2Proof.Machine

/-- Settles O9: the byte width's decode, and the form's completion and error. -/
theorem rImm8Form : Obligations.RImm8Form := by
  intro policy reg lo rest imm s
  rw [← irFirstByte_byte, ← signed16_eq_toInt]
  exact ⟨decodeBytes_imm8 .., rfl, fun hs hfit => exec_of_fits hs hfit nofun,
    fun hs hshort => ⟨_, _, exec_of_short hs hshort, takeError_status ..⟩⟩

/-- Settles O10: the word width's decode, and the form's completion and error. -/
theorem rImm16Form : Obligations.RImm16Form := by
  intro policy reg lo hi rest imm s
  rw [← irFirstByte_word, ← signed16_eq_toInt]
  exact ⟨decodeBytes_imm16 .., rfl, fun hs hfit => exec_of_fits hs hfit nofun,
    fun hs hshort => ⟨_, _, exec_of_short hs hshort, takeError_status ..⟩⟩

end Sys2Proof.Machine
end

section
/-! PROOFS. The Renderer's texts: `dec(v)` as a number of 44_renderer.md R138, which operands an instruction can have,
and why the text of an operand and the line of two operands can be taken apart again. -/

namespace Sys2Proof.Machine

open Sys2Proof.Safety

/-! ## Decimal text (44_renderer.md R137) -/

/-- The domain of `dec(v)`: the signed readings of a 16-bit pattern. -/
def InDecRange (v : Int) : Prop := -32768 ≤ v ∧ v ≤ 32767

theorem inDecRange_signed16 (v : Word) : InDecRange (signed16 v) := signed16_range v

theorem positiveValue_digitsText {fuel v : Nat} (h : v < 10 ^ (fuel + 1)) (hv : 0 < v) :
    positiveValue (digitsText fuel v) = some v := by
  obtain ⟨c, cs, htext, hzero, -⟩ := digitsText_head fuel v h hv
  have hvalue := digitsValue_digitsText fuel v h
  rw [htext] at hvalue ⊢
  rw [positiveValue, if_neg hzero, hvalue]

theorem numberValue_neg (t : Line) : numberValue ('-' :: t) = (positiveValue t).map fun v : Nat => -(v : Int) := by
  simp [numberValue]

theorem numberValue_pos {c : Char} (cs : Line) (hzero : c ≠ '0') (hminus : c ≠ '-') :
    numberValue (c :: cs) = (positiveValue (c :: cs)).map fun v : Nat => (v : Int) := by
  simp [numberValue, hzero, hminus]

theorem numberValue_decText {v : Int} (h : InDecRange v) : numberValue (decText v) = some v := by
  obtain ⟨hlo, hhi⟩ := h
  have hfuel : v.natAbs < 10 ^ (4 + 1) := by omega
  rcases lt_trichotomy v 0 with hneg | rfl | hpos
  · have habs : -(v.natAbs : Int) = v := by omega
    rw [decText, if_pos hneg, numberValue_neg, positiveValue_digitsText hfuel (by omega), Option.map_some, habs]
  · decide
  · have habs : (v.natAbs : Int) = v := by omega
    have hvalue := positiveValue_digitsText hfuel (by omega)
    obtain ⟨c, cs, htext, hzero, hminus⟩ := digitsText_head 4 v.natAbs hfuel (by omega)
    rw [htext] at hvalue
    rw [decText, if_neg (by omega), htext, numberValue_pos cs hzero hminus, hvalue, Option.map_some, habs]

theorem isNumber_decText {v : Int} (h : InDecRange v) : isNumber (decText v) :=
  ⟨v, numberValue_decText h, h⟩

theorem decText_injective {v w : Int} (hv : InDecRange v) (hw : InDecRange w) (h : decText v = decText w) : v = w := by
  have hvalue := congrArg numberValue h
  rw [numberValue_decText hv, numberValue_decText hw] at hvalue
  exact Option.some.inj hvalue

/-- The characters a number is written with. -/
def isNumberChar (c : Char) : Bool := "-0123456789".toList.contains c

theorem isNumberChar_digitChar {d : Nat} (h : d < 10) : isNumberChar (digitChar d) = true := by
  interval_cases d <;> decide

theorem isNumberChar_of_mem_digitsText {fuel v : Nat} {c : Char} (h : c ∈ digitsText fuel v) :
    isNumberChar c = true := by
  induction fuel generalizing v with
  | zero =>
    rw [List.mem_singleton.1 h]
    exact isNumberChar_digitChar (Nat.mod_lt v (by norm_num))
  | succ fuel ih =>
    rw [digitsText] at h
    split at h
    · rw [List.mem_singleton.1 h]
      exact isNumberChar_digitChar ‹_›
    · obtain h | h := List.mem_append.1 h
      · exact ih h
      · rw [List.mem_singleton.1 h]
        exact isNumberChar_digitChar (Nat.mod_lt v (by norm_num))

theorem isNumberChar_of_mem_decText {v : Int} {c : Char} (h : c ∈ decText v) : isNumberChar c = true := by
  rw [decText] at h
  split at h
  · obtain rfl | h := List.mem_cons.1 h
    · rfl
    · exact isNumberChar_of_mem_digitsText h
  · exact isNumberChar_of_mem_digitsText h

theorem digitsText_ne_nil (fuel v : Nat) : digitsText fuel v ≠ [] := by
  cases fuel with
  | zero => exact List.cons_ne_nil _ _
  | succ fuel =>
    rw [digitsText]
    split <;> simp

theorem decText_eq_cons (v : Int) : ∃ c cs, decText v = c :: cs ∧ isNumberChar c = true := by
  have hne : decText v ≠ [] := by
    rw [decText]
    split
    · exact List.cons_ne_nil _ _
    · exact digitsText_ne_nil _ _
  obtain ⟨c, cs, htext⟩ := List.exists_cons_of_ne_nil hne
  exact ⟨c, cs, htext, isNumberChar_of_mem_decText (v := v) (by simp [htext])⟩

/-! ## Memory text (44_renderer.md R134, R135) -/

theorem memText_eq (base : List RegName) (disp : Int) :
    memText base disp =
      "[".toList ++ baseText base ++ (if disp = 0 then [] else " + ".toList ++ decText disp) ++ "]".toList := by
  rw [memText]
  split <;> simp [plusText]

theorem isMemory_memText (rm : Selector) {disp : Int} (h : InDecRange disp) : isMemory (memText (eaBase rm) disp) := by
  rw [memText_eq]
  by_cases hzero : disp = 0
  · exact .inl ⟨_, baseText_mem rm, by simp [hzero]⟩
  · have hne : decText disp ≠ decText 0 := mt (decText_injective h (inDecRange_signed16 0)) hzero
    exact .inr ⟨_, baseText_mem rm, _, isNumber_decText h, hne, by simp [hzero]⟩

/-! ## The line (44_renderer.md R131) -/

theorem lineText_eq (dst src : Operand) :
    lineText dst src =
      "mov ".toList ++ operandText dst ++ ", ".toList ++ operandText src ++ "\n".toList := rfl

/-! ## The operands that instructions have (42_mov_rm_reg.md R109, 43_mov_imm_reg.md R120) -/

/-- At most one operand is a memory form, and an immediate is a source only. -/
theorem operands_instrRecord_cases (i : Instr) :
    (∃ a b, operands (instrRecord i) = (.reg a, .reg b)) ∨
    (∃ a rm disp, operands (instrRecord i) = (.reg a, .mem (eaBase rm) (signed16 disp))) ∨
    (∃ rm disp b, operands (instrRecord i) = (.mem (eaBase rm) (signed16 disp), .reg b)) ∨
    (∃ a imm, operands (instrRecord i) = (.reg a, .imm (signed16 imm))) := by
  cases i with
  | movRmRReg | movRRmReg => exact .inl ⟨_, _, rfl⟩
  | movRRmMem0 | movRRmMem8 | movRRmMem16 => exact .inr (.inl ⟨_, _, _, rfl⟩)
  | movRmRMem0 | movRmRMem8 | movRmRMem16 => exact .inr (.inr (.inl ⟨_, _, _, rfl⟩))
  | movRImm8 | movRImm16 => exact .inr (.inr (.inr ⟨_, _, rfl⟩))

/-- An operand that the Renderer can be given: its base is one of `EANAME`'s, its numbers are in `dec`'s domain. -/
def Operand.Printable : Operand → Prop
  | .reg _ => True
  | .mem base disp => (∃ rm, base = eaBase rm) ∧ InDecRange disp
  | .imm value => InDecRange value

theorem printable_reg (name : RegName) : (Operand.reg name).Printable := trivial

theorem printable_mem (rm : Selector) (disp : Word) : (Operand.mem (eaBase rm) (signed16 disp)).Printable :=
  ⟨⟨rm, rfl⟩, inDecRange_signed16 disp⟩

theorem printable_imm (imm : Word) : (Operand.imm (signed16 imm)).Printable := inDecRange_signed16 imm

theorem printable_operands (i : Instr) :
    (operands (instrRecord i)).1.Printable ∧ (operands (instrRecord i)).2.Printable := by
  obtain ⟨a, b, h⟩ | ⟨a, rm, disp, h⟩ | ⟨rm, disp, b, h⟩ | ⟨a, imm, h⟩ := operands_instrRecord_cases i <;> rw [h]
  · exact ⟨printable_reg a, printable_reg b⟩
  · exact ⟨printable_reg a, printable_mem rm disp⟩
  · exact ⟨printable_mem rm disp, printable_reg b⟩
  · exact ⟨printable_reg a, printable_imm imm⟩

/-! ## Taking a text apart -/

/-- Two texts are cut alike where the first character of a kind stands. -/
theorem append_cons_inj_of_first {p : Char → Bool} {xs xs' ys ys' : Line} {c c' : Char}
    (hxs : xs.any p = false) (hxs' : xs'.any p = false) (hc : p c = true) (hc' : p c' = true)
    (h : xs ++ c :: ys = xs' ++ c' :: ys') : xs = xs' ∧ c :: ys = c' :: ys' := by
  have cut {zs ws : Line} {d : Char} (hzs : zs.any p = false) (hd : p d = true) :
      (zs ++ d :: ws).takeWhile (fun x => !p x) = zs := by
    rw [List.takeWhile_append_of_pos (by simpa using hzs), List.takeWhile_cons_of_neg (by simp [hd]), List.append_nil]
  have hhead : xs = xs' := by rw [← cut hxs hc, h, cut hxs' hc']
  subst hhead
  exact ⟨rfl, List.append_cancel_left h⟩

theorem any_isNumberChar_regText (r : RegName) : (regText r).any isNumberChar = false := by
  cases r <;> rfl

theorem regText_ne_memText (r : RegName) (base : List RegName) (disp : Int) : regText r ≠ memText base disp := by
  have hmem : '[' ∈ memText base disp := by simp [memText_eq]
  have hreg : '[' ∉ regText r := by cases r <;> decide
  exact fun h => hreg (h ▸ hmem)

theorem regText_ne_decText (r : RegName) (v : Int) : regText r ≠ decText v := by
  intro h
  obtain ⟨c, cs, htext, hc⟩ := decText_eq_cons v
  have hreg := any_isNumberChar_regText r
  simp [h, htext, hc] at hreg

theorem memText_ne_decText (base : List RegName) (disp v : Int) : memText base disp ≠ decText v := by
  intro h
  have hmem : '[' ∈ memText base disp := by simp [memText_eq]
  exact absurd (isNumberChar_of_mem_decText (h ▸ hmem)) (by decide)

/-- A memory text is cut before its number, or before the closing bracket where it prints none. -/
def endsMemHead (c : Char) : Bool := c = ']' || isNumberChar c

/-- What stands before that cut, inside the brackets. -/
def memHead (rm : Selector) (printsDisp : Bool) : Line :=
  baseText (eaBase rm) ++ if printsDisp then plusText else []

theorem any_endsMemHead_memHead (rm : Selector) (printsDisp : Bool) :
    (memHead rm printsDisp).any endsMemHead = false := by
  revert rm printsDisp; decide

theorem memHead_injective {rm rm' : Selector} {printsDisp printsDisp' : Bool}
    (h : memHead rm printsDisp = memHead rm' printsDisp') : rm = rm' ∧ printsDisp = printsDisp' := by
  revert rm rm' printsDisp printsDisp'; decide

theorem memText_eq_memHead (rm : Selector) (disp : Int) :
    ∃ c cs, endsMemHead c = true ∧ memText (eaBase rm) disp = '[' :: (memHead rm (disp ≠ 0) ++ c :: cs) ∧
      (disp ≠ 0 → c :: cs = decText disp ++ [']']) := by
  by_cases hzero : disp = 0
  · exact ⟨']', [], rfl, by simp [memText, memHead, hzero], fun h => absurd hzero h⟩
  · obtain ⟨c, cs, htext, hc⟩ := decText_eq_cons disp
    exact ⟨c, cs ++ [']'], by simp [endsMemHead, hc], by simp [memText, memHead, hzero, htext], by simp [htext]⟩

theorem memText_injective {rm rm' : Selector} {disp disp' : Int} (hd : InDecRange disp) (hd' : InDecRange disp')
    (h : memText (eaBase rm) disp = memText (eaBase rm') disp') : rm = rm' ∧ disp = disp' := by
  obtain ⟨c, cs, hc, htext, hnum⟩ := memText_eq_memHead rm disp
  obtain ⟨c', cs', hc', htext', hnum'⟩ := memText_eq_memHead rm' disp'
  rw [htext, htext'] at h
  obtain ⟨hhead, htail⟩ := append_cons_inj_of_first (any_endsMemHead_memHead ..) (any_endsMemHead_memHead ..) hc hc'
    (List.cons.inj h).2
  obtain ⟨rfl, hprints⟩ := memHead_injective hhead
  have hiff : disp = 0 ↔ disp' = 0 := not_iff_not.1 (decide_eq_decide.1 hprints)
  refine ⟨rfl, ?_⟩
  by_cases hzero : disp = 0
  · exact hzero.trans (hiff.1 hzero).symm
  · rw [hnum hzero, hnum' (mt hiff.2 hzero)] at htail
    exact decText_injective hd hd' (List.append_cancel_right htail)

/-- The kind of an operand shows in its text, and each kind's text is injective. -/
theorem operandText_injective {a b : Operand} (ha : a.Printable) (hb : b.Printable)
    (h : operandText a = operandText b) : a = b := by
  cases a with
  | reg name =>
    cases b with
    | reg name' => rw [regText_injective h]
    | mem base disp => exact absurd h (regText_ne_memText _ _ _)
    | imm value => exact absurd h (regText_ne_decText _ _)
  | mem base disp =>
    obtain ⟨⟨rm, rfl⟩, hd⟩ := ha
    cases b with
    | reg name => exact absurd h.symm (regText_ne_memText _ _ _)
    | mem base' disp' =>
      obtain ⟨⟨rm', rfl⟩, hd'⟩ := hb
      obtain ⟨rfl, rfl⟩ := memText_injective hd hd' h
      rfl
    | imm value => exact absurd h (memText_ne_decText _ _ _)
  | imm value =>
    cases b with
    | reg name => exact absurd h.symm (regText_ne_decText _ _)
    | mem base disp => exact absurd h.symm (memText_ne_decText _ _ _)
    | imm value' => rw [decText_injective ha hb h]

/-- No operand's text holds the comma that follows the destination. -/
theorem comma_not_mem_operandText {a : Operand} (ha : a.Printable) : ',' ∉ operandText a := by
  have hdec (v : Int) : ',' ∉ decText v := fun h => absurd (isNumberChar_of_mem_decText h) (by decide)
  cases a with
  | reg name => cases name <;> decide
  | mem base disp =>
    obtain ⟨⟨rm, rfl⟩, -⟩ := ha
    have hbase : ',' ∉ baseText (eaBase rm) := by revert rm; decide
    rw [operandText, memText]
    split <;> simp [plusText, hbase, hdec]
  | imm value => exact hdec value

/-- A line is cut at its first comma, so it determines both operands. -/
theorem lineText_injective {dst src dst' src' : Operand} (hd : dst.Printable) (hs : src.Printable)
    (hd' : dst'.Printable) (hs' : src'.Printable) (h : lineText dst src = lineText dst' src') :
    dst = dst' ∧ src = src' := by
  have noComma {a : Operand} (ha : a.Printable) : (operandText a).any (· == ',') = false := by
    simpa [List.any_beq'] using comma_not_mem_operandText ha
  simp only [lineText, List.append_assoc] at h
  obtain ⟨hdst, hrest⟩ := append_cons_inj_of_first (noComma hd) (noComma hd') (beq_self_eq_true ',')
    (beq_self_eq_true ',') (List.append_cancel_left h)
  have hsrc := List.append_cancel_right (List.append_cancel_left (as := [',', ' ']) hrest)
  exact ⟨operandText_injective hd hd' hdst, operandText_injective hs hs' hsrc⟩

/-! ## The register-direct encodings as the spec numbers them (44_renderer.md R140) -/

theorem ofNat_eq_rmFirstByte (d w : Bool) :
    BitVec.ofNat 8 (0x88 + 2 * d.toNat + w.toNat) = rmFirstByte (.ofBit d) (.ofBit w) := by
  cases d <;> cases w <;> rfl

theorem ofNat_eq_modeByte_reg (reg rm : Fin 8) :
    BitVec.ofNat 8 (0xC0 + 8 * reg.val + rm.val) = modeByte .reg (.ofFin reg) (.ofFin rm) := by
  revert reg rm; decide

theorem registerTexts_getD (w : Bool) (sel : Fin 8) :
    registerTexts.getD (8 * w.toNat + sel.val) [] = regText (regName (.ofBit w) (.ofFin sel)) := by
  rw [regText_regName]
  cases w <;> rfl

end Sys2Proof.Machine
end

section
/-! PROOFS. The statements of 44_renderer.md. -/

namespace Sys2Proof.Machine

open Sys2Proof.Safety

/-- Settles O34: each of the four shapes of an instruction's operands prints the parts of a line. -/
theorem renderedLineIsInTheGrammar : Obligations.RenderedLineIsInTheGrammar := by
  intro i
  refine ⟨_, _, lineText_eq .., ?_⟩
  obtain ⟨a, b, h⟩ | ⟨a, rm, disp, h⟩ | ⟨rm, disp, b, h⟩ | ⟨a, imm, h⟩ := operands_instrRecord_cases i <;> rw [h]
  · exact .inl ⟨regText_mem a, .inl (regText_mem b)⟩
  · exact .inl ⟨regText_mem a, .inr (.inl (isMemory_memText rm (inDecRange_signed16 disp)))⟩
  · exact .inr ⟨isMemory_memText rm (inDecRange_signed16 disp), regText_mem b⟩
  · exact .inl ⟨regText_mem a, .inr (.inr (isNumber_decText (inDecRange_signed16 imm)))⟩

/-- Settles O36, by the sign of the value. -/
theorem decimalTextReadsBack : Obligations.DecimalTextReadsBack :=
  fun _ hlo hhi => numberValue_decText ⟨hlo, hhi⟩

/-- Settles O37: the two bytes are the form's encoding, and its two names are the ROM's entries. -/
theorem registerDirectText : Obligations.RegisterDirectText := by
  intro policy d w reg rm rest
  simp only [ofNat_eq_rmFirstByte, ofNat_eq_modeByte_reg, registerTexts_getD, decodeBytes_reg]
  cases d <;> rfl

/-- Settles O39: a line is cut at its comma, and each operand's text determines the operand. -/
theorem lineDeterminesOperands : Obligations.LineDeterminesOperands := by
  intro i j h
  obtain ⟨hdi, hsi⟩ := printable_operands i
  obtain ⟨hdj, hsj⟩ := printable_operands j
  obtain ⟨hdst, hsrc⟩ := lineText_injective hdi hsi hdj hsj h
  exact Prod.ext hdst hsrc

/-- Settles O35: the line by its template, the names by the ROM's list. -/
theorem lineFormat : Obligations.LineFormat :=
  fun r name _ => ⟨lineText_eq (operands r).1 (operands r).2, regText_mem name, rfl⟩

/-- Settles O38: the text of the base is `EANAME`'s entry. -/
theorem memoryOperandText : Obligations.MemoryOperandText := by
  intro rm disp
  rw [operandText, memText_eq, baseText_eaBase]

end Sys2Proof.Machine
end

section
/-! PROOFS. The Stream Driver: what a step answers, which errors a decode call can raise, and everything that a run of
`k` steps can have read, written and ended with. -/

namespace Sys2Proof

/-- Every error of a decode call: `FileUnavailable` is none of them, `InvalidField` needs `refuse`
(60_exceptions.md R161 to R164). -/
theorem decodeBytes_error_cases {policy : DirectAddressPolicy} {bytes : List Byte} {kind : ErrorKind}
    (h : decodeBytes policy bytes = .error kind) :
    kind = .truncatedStream ∨ (kind = .invalidField ∧ policy = .refuse) ∨
      (kind = .unrecognizedOpcode ∧ bytes ≠ []) := by
  cases bytes with
  | nil => exact .inl (Except.error.inj h).symm
  | cons b0 rest =>
    simp only [decodeBytes] at h
    split at h
    · cases rest with
      | nil => exact .inl (Except.error.inj h).symm
      | cons b1 rest =>
        simp only [decodeRm] at h
        split at h
        · rename_i hp
          simp only [Bool.and_eq_true, decide_eq_true_eq] at hp
          exact .inr (.inl ⟨(Except.error.inj h).symm, hp.1⟩)
        · split at h
          · exact .inl (Except.error.inj h).symm
          · cases h
    · simp only [decodeIr] at h
      split at h
      · exact .inl (Except.error.inj h).symm
      · cases h
    · exact .inr (.inr ⟨(Except.error.inj h).symm, List.cons_ne_nil b0 rest⟩)

end Sys2Proof

namespace Sys2Proof.Machine

open Sys2Proof.Safety

/-! ## One step -/

/-- The state once `i` has been rendered and passed. -/
def afterInstr (i : Instr) (s : State) : State :=
  advance (emit s (render (instrRecord i))) (instrRecord i).lengthBytes

@[simp] theorem afterInstr_n (i : Instr) (s : State) : (afterInstr i s).n = s.n := rfl

@[simp] theorem afterInstr_pc (i : Instr) (s : State) :
    (afterInstr i s).pc = s.pc + (instrRecord i).lengthBytes := rfl

@[simp] theorem afterInstr_status (i : Instr) (s : State) : (afterInstr i s).status = s.status := rfl

/-- The next state that a step answers, in each of its cases (45_stream_driver.md R150). -/
theorem step_next_cases {s t : State} (h : step s = .next t) :
    s.status = .running ∧
    ((s.pc = s.n ∧ t = finish s) ∨
     (s.pc ≠ s.n ∧ ∃ kind, decodeAt s s.pc = .error kind ∧ t = takeError s kind) ∨
     (∃ i, decodeAt s s.pc = .ok i ∧ t = afterInstr i s)) := by
  obtain ⟨hs, hend | herr | ⟨-, i, hd, hexec⟩⟩ := step_cases h
  · exact ⟨hs, .inl hend⟩
  · exact ⟨hs, .inr (.inl herr)⟩
  · rw [exec_of_formError_none hs (formError_none_of_decodeAt hd)] at hexec
    exact ⟨hs, .inr (.inr ⟨i, hd, (Host.Outcome.next.inj hexec).symm⟩)⟩

theorem window_eq_nil {s : State} {p : Nat} (h : s.n ≤ p) : window s p = [] := by
  rw [← List.length_eq_zero_iff, length_window]
  omega

/-- A decode call that raises an error at the cursor records the position, and the first byte for
`UnrecognizedOpcode`: that byte is there, since the call read it (60_exceptions.md R162, R166). -/
theorem errorInfo_of_decodeAt {s : State} {kind : ErrorKind} (hd : decodeAt s s.pc = .error kind) :
    errorInfo s kind =
      { position := s.pc, byte := if kind = .unrecognizedOpcode then some (s.buf.read s.pc) else none } := by
  obtain rfl | ⟨rfl, -⟩ | ⟨rfl, hwin⟩ := decodeBytes_error_cases hd
  · rfl
  · rfl
  · have hpc : s.pc < s.n := Nat.lt_of_not_le fun hle => hwin (window_eq_nil hle)
    simp [errorInfo, bufRead, hpc]

/-! ## The invariant of a run -/

theorem runInv_finish {s : State} (h : runInv s) (hn : s.pc = s.n) : runInv (finish s) := by
  obtain ⟨hbuf, hpc, -, hout⟩ := h
  exact ⟨hbuf, hpc, hn, hout⟩

theorem runInv_takeError {s : State} {kind : ErrorKind} (h : runInv s) (hd : decodeAt s s.pc = .error kind) :
    runInv (takeError s kind) := by
  obtain ⟨hbuf, hpc, -, hout⟩ := h
  have hkind : kind ≠ .fileUnavailable ∧ (kind = .invalidField → s.policy = .refuse) := by
    obtain rfl | ⟨rfl, hp⟩ | ⟨rfl, -⟩ := decodeBytes_error_cases hd
    · exact ⟨nofun, nofun⟩
    · exact ⟨nofun, fun _ => hp⟩
    · exact ⟨nofun, nofun⟩
  exact ⟨hbuf, hpc, ⟨hkind.1, rfl, hkind.2⟩, hout⟩

theorem runInv_afterInstr {s : State} {i : Instr} (h : runInv s) (hs : s.status = .running)
    (hfit : s.pc + (instrRecord i).lengthBytes ≤ s.n) : runInv (afterInstr i s) := by
  obtain ⟨hbuf, -, -, hout⟩ := h
  refine ⟨hbuf, hfit, by simp [statusOk, hs], fun line hline => ?_⟩
  obtain hline | hline := List.mem_append.1 hline
  · exact hout line hline
  · rw [List.mem_singleton.1 hline]
    exact renderedLineIsInTheGrammar i

/-! ## Runs -/

theorem runsTo_zero_iff {s t : State} : runsTo 0 s t ↔ t = s :=
  ⟨fun h => (Host.Outcome.next.inj h).symm, fun h => congrArg Host.Outcome.next h.symm⟩

theorem runsTo_one {s t : State} (h : step s = .next t) : runsTo 1 s t :=
  runsTo_succ_iff.2 ⟨t, h, runsTo_zero_iff.2 rfl⟩

/-- A run that is over goes no further. -/
theorem runsTo_of_not_running {k : Nat} {s t : State} (hs : s.status ≠ .running) (h : runsTo k s t) : t = s := by
  cases k with
  | zero => exact runsTo_zero_iff.1 h
  | succ k =>
    obtain ⟨u, hu, -⟩ := runsTo_succ_iff.1 h
    exact absurd (step_cases hu).1 hs

/-- A step takes two bytes or ends the run, so `k` steps are enough for fewer than `2 * k` bytes
(45_stream_driver.md R158). -/
theorem run_ends_within {k : Nat} {s : State} (hs : s.status = .running) (hk : s.n - s.pc < 2 * k) :
    ∃ j t, j ≤ k ∧ runsTo j s t ∧ t.status ≠ .running := by
  induction k generalizing s with
  | zero => omega
  | succ k ih =>
    obtain ⟨t, ht⟩ := step_answers hs
    obtain ⟨-, ⟨-, rfl⟩ | ⟨-, kind, -, rfl⟩ | ⟨i, hd, rfl⟩⟩ := step_next_cases ht
    · exact ⟨1, _, by omega, runsTo_one ht, nofun⟩
    · exact ⟨1, _, by omega, runsTo_one ht, nofun⟩
    · have hfit := fits_of_decodeAt hd
      have hlen := instrRecord_length i
      obtain ⟨j, u, hj, hrun, hu⟩ := ih (s := afterInstr i s) hs (by rw [afterInstr_n, afterInstr_pc]; omega)
      exact ⟨j + 1, u, by omega, runsTo_succ_iff.2 ⟨_, ht, hrun⟩, hu⟩

/-! ## What a run has read -/

/-- The bytes from the cursor on are the encodings of the well-formed instructions `is`, laid end to end. -/
def EncodingsAtCursor (is : List Instr) (s : State) : Prop :=
  (∀ i ∈ is, i.wellFormed = true) ∧ is.flatMap encode = s.buf.readBytes s.pc (is.flatMap encode).length

/-- The state once `is` have been rendered and passed. -/
def afterInstrs (is : List Instr) (s : State) : State :=
  { s with pc := s.pc + (is.flatMap encode).length, out := s.out ++ is.map fun i => render (instrRecord i) }

@[simp] theorem afterInstrs_nil (s : State) : afterInstrs [] s = s := by
  simp [afterInstrs]

/-- The first instruction is passed by one step's effect. -/
theorem afterInstrs_cons (i : Instr) (is : List Instr) (s : State) :
    afterInstrs (i :: is) s = afterInstrs is (afterInstr i s) := by
  simp [afterInstrs, afterInstr, advance, emit, length_encode, Nat.add_assoc]

theorem encodingsAtCursor_nil (s : State) : EncodingsAtCursor [] s := ⟨nofun, rfl⟩

/-- A decoded instruction's encoding stands where it was decoded (30_encoding.md R71). -/
theorem encode_eq_readBytes_of_decodeAt {s : State} {p : Nat} {i : Instr} (hd : decodeAt s p = .ok i) :
    encode i = s.buf.readBytes p (instrRecord i).lengthBytes := by
  have hfit := fits_of_decodeAt hd
  have hlen := instrRecord_length i
  have hmin : min (s.n - p) 4 =
      (instrRecord i).lengthBytes + (min (s.n - p) 4 - (instrRecord i).lengthBytes) := by omega
  rw [encode_eq_take_of_decodeBytes hd, window_eq_readBytes, hmin, readBytes_add,
    List.take_left' (length_readBytes ..)]

/-- The converse of `eq_readBytes`: bytes read from the buffer agree with it offset by offset. -/
theorem getElem?_of_eq_readBytes {m : Memory} {a : Nat} {bytes : List Byte}
    (h : bytes = m.readBytes a bytes.length) (k : Nat) (hk : k < bytes.length) :
    bytes[k]? = some (m.read (a + k)) := by
  rw [h, readBytes_getElem?, if_pos hk]

theorem encodingsAtCursor_cons {i : Instr} {is : List Instr} {s : State} (hd : decodeAt s s.pc = .ok i)
    (h : EncodingsAtCursor is (afterInstr i s)) : EncodingsAtCursor (i :: is) s := by
  obtain ⟨hwf, hbytes⟩ := h
  refine ⟨List.forall_mem_cons.2 ⟨wellFormed_of_decodeBytes hd, hwf⟩, ?_⟩
  rw [List.flatMap_cons, List.length_append, readBytes_add, length_encode, ← encode_eq_readBytes_of_decodeAt hd]
  exact congrArg (encode i ++ ·) hbytes

/-- Everything a run of `k` steps can do: it passes encodings laid end to end, and then is still going on, has ended
`DONE` at `N`, or has taken the error raised where it stands. -/
theorem runsTo_cases {k : Nat} {s t : State} (hs : s.status = .running) (h : runsTo k s t) :
    ∃ is, EncodingsAtCursor is s ∧
      (t = afterInstrs is s ∨
       ((afterInstrs is s).pc = s.n ∧ t = finish (afterInstrs is s)) ∨
       ((afterInstrs is s).pc ≠ s.n ∧ ∃ kind, decodeAt s (afterInstrs is s).pc = .error kind ∧
         t = takeError (afterInstrs is s) kind)) := by
  induction k generalizing s with
  | zero => exact ⟨[], encodingsAtCursor_nil s, .inl (by rw [runsTo_zero_iff.1 h, afterInstrs_nil])⟩
  | succ k ih =>
    obtain ⟨u, hu, hrun⟩ := runsTo_succ_iff.1 h
    obtain ⟨-, ⟨hn, rfl⟩ | ⟨hn, kind, hd, rfl⟩ | ⟨i, hd, rfl⟩⟩ := step_next_cases hu
    · obtain rfl : t = finish s := runsTo_of_not_running nofun hrun
      exact ⟨[], encodingsAtCursor_nil s, .inr (.inl (by simpa using hn))⟩
    · obtain rfl : t = takeError s kind := runsTo_of_not_running nofun hrun
      exact ⟨[], encodingsAtCursor_nil s, .inr (.inr (by simpa using ⟨hn, kind, hd, rfl⟩))⟩
    · obtain ⟨is, hread, hend⟩ := ih (s := afterInstr i s) hs hrun
      refine ⟨i :: is, encodingsAtCursor_cons hd hread, ?_⟩
      rw [afterInstrs_cons]
      exact hend

end Sys2Proof.Machine
end

section
/-! PROOFS. The statements of 45_stream_driver.md. -/

namespace Sys2Proof.Machine

open Sys2Proof.Safety

/-- Settles O43: each of the three answers of a step keeps the invariant. -/
theorem stepKeepsRunInvariant : Obligations.StepKeepsRunInvariant := by
  intro s t hinv h
  obtain ⟨hs, ⟨hn, rfl⟩ | ⟨-, kind, hd, rfl⟩ | ⟨i, hd, rfl⟩⟩ := step_next_cases h
  · exact runInv_finish hinv hn
  · exact runInv_takeError hinv hd
  · exact runInv_afterInstr hinv hs (fits_of_decodeAt hd)

/-- Settles O46: fewer than `2 * ((N - pc) / 2 + 1)` bytes remain, and each step takes two or ends the run. -/
theorem everyRunTerminates : Obligations.EveryRunTerminates :=
  fun _ hs => run_ends_within hs (by omega)

/-- Settles O48: of the three ways a run can stand, only the one at `N` is `DONE`. -/
theorem doneMeansEncodings : Obligations.DoneMeansEncodings := by
  intro k s t hs h hdone
  obtain ⟨is, ⟨hwf, hbytes⟩, rfl | ⟨hn, rfl⟩ | ⟨-, kind, -, rfl⟩⟩ := runsTo_cases hs h
  · exact absurd (hs.symm.trans hdone) nofun
  · exact ⟨hn, is, hn.symm, getElem?_of_eq_readBytes hbytes, hwf, rfl⟩
  · exact absurd hdone nofun

/-- Settles O15: what decodes is well formed, and the checks that `exec` repeats do not fire on it. -/
theorem stepRunsDecodedInstruction : Obligations.StepRunsDecodedInstruction :=
  fun _ _ hs _ hd => ⟨wellFormed_of_decodeBytes hd, step_eq_exec_of_decodeAt hs hd⟩

/-- Settles O16, case by case from the equations of the step. -/
theorem stepRelation : Obligations.StepRelation := by
  intro s
  refine ⟨fun hs t h => hs (step_cases h).1, step_at_end, fun i hs hn hd => step_of_decodeAt_ok hs hn hd, ?_⟩
  intro kind hs hn hd
  rw [step_of_decodeAt_error hs hn hd, takeError, errorInfo_of_decodeAt hd]

end Sys2Proof.Machine
end

section
/-! PROOFS. Which error a decode call raises, read off the pseudocode that it refines (60_exceptions.md R162 to
R164). -/

namespace Sys2Proof

/-! ## The bytes that the error conditions speak of -/

theorem classify_eq_none_iff_patterns (b0 : Byte) :
    classify b0 = none ↔ b0.extractLsb' 2 6 ≠ 0b100010#6 ∧ b0.extractLsb' 4 4 ≠ 0b1011#4 := by
  rw [classify_eq]
  split_ifs with hrm hir
  · simp [hrm]
  · simp [hir]
  · simp [hrm, hir]

/-- The register/memory pattern takes 4 of the 256 byte values and the immediate pattern 16. The values are counted in
two halves, each small enough for `decide`. -/
theorem length_filter_classify_eq_none :
    ((List.range 256).filter fun v => (classify (BitVec.ofNat 8 v)).isNone).length = 236 := by
  rw [← List.countP_eq_length_filter, List.range_eq_range', ← List.range'_append_1 (m := 128) (n := 128),
    List.countP_append]
  decide

theorem classify_eq_movRm_iff_range (b0 : Byte) :
    classify b0 = some .movRm ↔ 0x88 ≤ b0.toNat ∧ b0.toNat ≤ 0x8B := by
  revert b0; decide

theorem classify_movIr_byte_iff_range (b0 : Byte) :
    (classify b0 = some .movIr ∧ irWidth b0 = .byte) ↔ 0xB0 ≤ b0.toNat ∧ b0.toNat ≤ 0xB7 := by
  revert b0; decide

theorem classify_movIr_word_iff_range (b0 : Byte) :
    (classify b0 = some .movIr ∧ irWidth b0 = .word) ↔ 0xB8 ≤ b0.toNat ∧ b0.toNat ≤ 0xBF := by
  revert b0; decide

/-- Mode 00 with `rm` = 6 as one mask of the mode byte (60_exceptions.md R163). -/
theorem isDirectAddress_iff_mask (b1 : Byte) :
    isDirectAddress (modeField b1) (rmField b1) = true ↔ b1 &&& 0xC7#8 = 0x06#8 := by
  revert b1; decide

theorem lt_rmLength_iff (k : Nat) (b1 : Byte) :
    k < rmLength (modeField b1) ↔
      k < 2 ∨ (b1.extractLsb' 6 2 = 0b01#2 ∧ k < 3) ∨ (b1.extractLsb' 6 2 = 0b10#2 ∧ k < 4) := by
  rw [rmLength_modeField]
  split_ifs with h8 h16
  · have hle : k < 3 ↔ k < 2 ∨ k < 3 := by omega
    simpa [h8] using hle
  · have hle : k < 4 ↔ k < 2 ∨ k < 4 := by omega
    simpa [h16] using hle
  · simp [h8, h16]

/-- The immediate form that a first byte starts does not fit in `k` bytes. -/
theorem movIr_lt_irLength_iff (k : Nat) (b0 : Byte) :
    (classify b0 = some .movIr ∧ k < irLength (irWidth b0)) ↔
      (0xB0 ≤ b0.toNat ∧ b0.toNat ≤ 0xB7 ∧ k < 2) ∨ (0xB8 ≤ b0.toNat ∧ b0.toNat ≤ 0xBF ∧ k < 3) := by
  simp only [← and_assoc, ← classify_movIr_byte_iff_range, ← classify_movIr_word_iff_range]
  cases irWidth b0 <;> simp [irLength]

end Sys2Proof

namespace Sys2Proof.Safety

open Sys2Proof.Machine

/-! ## The errors of the two paths -/

/-- The mode byte may itself be the missing one, since no form is shorter than two bytes; a refused form is two bytes
long, so a refusal and a missing byte exclude each other. -/
theorem refDecodeRm_truncated_iff {s : State} {p : Nat} (b0 : Byte) :
    refDecodeRm s p b0 = .error .truncatedStream ↔ s.n - p < rmLength (modeField (s.buf.read (p + 1))) := by
  have htwo (mode : Mode) : 2 ≤ rmLength mode := by cases mode <;> simp [rmLength]
  by_cases hlt : s.n - p < 2
  · exact iff_of_true (refDecodeRm_of_lt_two b0 hlt) (hlt.trans_le (htwo _))
  · rw [refDecodeRm_of_two_le b0 (Nat.le_of_not_lt hlt)]
    dsimp only
    split_ifs with hrefused hshort
    · obtain ⟨hmode, -⟩ : modeField (s.buf.read (p + 1)) = .mem0 ∧ rmField (s.buf.read (p + 1)) = 6#3 := by
        simpa [isDirectAddress] using hrefused.2
      exact iff_of_false nofun (by rwa [hmode])
    · exact iff_of_true rfl hshort
    · exact iff_of_false nofun hshort

theorem refDecodeRm_invalidField_iff {s : State} {p : Nat} (b0 : Byte) :
    refDecodeRm s p b0 = .error .invalidField ↔
      2 ≤ s.n - p ∧ s.policy = .refuse ∧
        isDirectAddress (modeField (s.buf.read (p + 1))) (rmField (s.buf.read (p + 1))) = true := by
  by_cases htwo : 2 ≤ s.n - p
  · rw [refDecodeRm_of_two_le b0 htwo]
    dsimp only
    split_ifs with hrefused hshort
    · exact iff_of_true rfl ⟨htwo, hrefused⟩
    · exact iff_of_false nofun fun h => hrefused h.2
    · exact iff_of_false nofun fun h => hrefused h.2
  · rw [refDecodeRm_of_lt_two b0 (Nat.lt_of_not_le htwo)]
    exact iff_of_false nofun fun h => htwo h.1

theorem refDecodeIr_truncated_iff {s : State} {p : Nat} (b0 : Byte) :
    refDecodeIr s p b0 = .error .truncatedStream ↔ s.n - p < irLength (irWidth b0) := by
  rw [refDecodeIr_eq]
  split_ifs with hshort
  · exact iff_of_true rfl hshort
  · exact iff_of_false nofun hshort

theorem refDecodeIr_ne_invalidField {s : State} {p : Nat} (b0 : Byte) :
    refDecodeIr s p b0 ≠ .error .invalidField := by
  rw [refDecodeIr_eq]
  split_ifs <;> exact nofun

end Sys2Proof.Safety

namespace Sys2Proof.Machine

open Sys2Proof.Safety

/-! ## The error of a decode call, by the class of its first byte -/

theorem decodeAt_error_iff_refDecode {s : State} {p : Nat} {kind : ErrorKind} :
    decodeAt s p = .error kind ↔ refDecode s p = .error kind := by
  rw [← decoderRefinesPseudocode s p]
  cases decodeAt s p <;> simp [Except.map]

theorem decodeAt_of_le {s : State} {p : Nat} (h : s.n ≤ p) : decodeAt s p = .error .truncatedStream := by
  rw [decodeAt, window_eq_nil h]
  rfl

theorem decodeAt_unrecognized_iff {s : State} {p : Nat} (hp : p < s.n) :
    decodeAt s p = .error .unrecognizedOpcode ↔ classify (s.buf.read p) = none := by
  obtain ⟨rest, hwin⟩ := window_eq_cons hp
  rw [decodeAt, hwin, decodeBytes_unrecognized_iff]

theorem decodeAt_error_iff_of_movRm {s : State} {p : Nat} {kind : ErrorKind} (hp : p < s.n)
    (hc : classify (s.buf.read p) = some .movRm) :
    decodeAt s p = .error kind ↔ refDecodeRm s p (s.buf.read p) = .error kind := by
  rw [decodeAt_error_iff_refDecode, refDecode, if_neg (Nat.not_le.2 hp)]
  simp only [slice_eq_movRm_iff, memRead1, hc, if_pos]

theorem decodeAt_error_iff_of_movIr {s : State} {p : Nat} {kind : ErrorKind} (hp : p < s.n)
    (hc : classify (s.buf.read p) = some .movIr) :
    decodeAt s p = .error kind ↔ refDecodeIr s p (s.buf.read p) = .error kind := by
  rw [decodeAt_error_iff_refDecode, refDecode, if_neg (Nat.not_le.2 hp)]
  simp [slice_eq_movRm_iff, slice_eq_movIr_iff, memRead1, hc]

/-- Fewer bytes remain than the form that the first byte starts needs. -/
theorem decodeAt_truncated_iff {s : State} {p : Nat} (hp : p < s.n) :
    decodeAt s p = .error .truncatedStream ↔
      (classify (s.buf.read p) = some .movRm ∧ s.n - p < rmLength (modeField (s.buf.read (p + 1)))) ∨
      (classify (s.buf.read p) = some .movIr ∧ s.n - p < irLength (irWidth (s.buf.read p))) := by
  cases hc : classify (s.buf.read p) with
  | none => simp [(decodeAt_unrecognized_iff hp).2 hc]
  | some op =>
    cases op with
    | movRm => simp [decodeAt_error_iff_of_movRm hp hc, refDecodeRm_truncated_iff]
    | movIr => simp [decodeAt_error_iff_of_movIr hp hc, refDecodeIr_truncated_iff]

theorem decodeAt_invalidField_iff {s : State} {p : Nat} (hp : p < s.n) :
    decodeAt s p = .error .invalidField ↔
      classify (s.buf.read p) = some .movRm ∧ 2 ≤ s.n - p ∧ s.policy = .refuse ∧
        isDirectAddress (modeField (s.buf.read (p + 1))) (rmField (s.buf.read (p + 1))) = true := by
  cases hc : classify (s.buf.read p) with
  | none => simp [(decodeAt_unrecognized_iff hp).2 hc]
  | some op =>
    cases op with
    | movRm => simp [decodeAt_error_iff_of_movRm hp hc, refDecodeRm_invalidField_iff]
    | movIr => simp [decodeAt_error_iff_of_movIr hp hc, refDecodeIr_ne_invalidField]

end Sys2Proof.Machine
end

section
/-! PROOFS. The statements of 60_exceptions.md. -/

namespace Sys2Proof.Machine

open Sys2Proof.Safety

/-- Settles O49: of the three ways a run can stand, only the one that took an error is `FAILED`, and it took it where
the encodings it passed end. -/
theorem failedRunIsPrecise : Obligations.FailedRunIsPrecise := by
  intro k s t kind info hs h hfailed
  obtain ⟨is, ⟨hwf, hbytes⟩, rfl | ⟨-, rfl⟩ | ⟨hn, raised, hd, rfl⟩⟩ := runsTo_cases hs h
  · exact absurd (hs.symm.trans hfailed) nofun
  · exact absurd hfailed nofun
  · cases hfailed
    exact ⟨hd, rfl, hn, is, rfl, hwf, getElem?_of_eq_readBytes hbytes, rfl⟩

/-- Settles O19: the step takes the error, and the host reads back what it recorded. -/
theorem errorWritesStatusOnly : Obligations.ErrorWritesStatusOnly := by
  intro s kind hs hn hd
  refine ⟨takeError s kind, step_of_decodeAt_error hs hn hd, rfl, rfl, rfl, rfl, ?_⟩
  rintro rfl
  simp [statusByte, errorInfo_of_decodeAt hd]

/-- Settles O20: at or past `N` no byte is there to be refused, and below it only classification refuses one. -/
theorem unrecognizedExactly : Obligations.UnrecognizedExactly := by
  refine ⟨fun s p => ⟨?_, fun _ hd t h => (outputAppendsOneLine s t h).2 (.inr ⟨_, hd⟩)⟩,
    length_filter_classify_eq_none⟩
  by_cases hp : p < s.n
  · simp [hp, decodeAt_unrecognized_iff hp, classify_eq_none_iff_patterns]
  · simp [hp, decodeAt_of_le (Nat.le_of_not_lt hp)]

/-- Settles O22: at or past `N` always; below it when the form that the first byte starts does not fit. -/
theorem truncatedExactly : Obligations.TruncatedExactly := by
  intro s p
  by_cases hp : p < s.n
  · rw [decodeAt_truncated_iff hp, classify_eq_movRm_iff_range, lt_rmLength_iff, movIr_lt_irLength_iff]
    simp [hp, Nat.not_le.2 hp, and_assoc]
  · simp [Nat.le_of_not_lt hp, decodeAt_of_le (Nat.le_of_not_lt hp)]

/-- Settles O23: only the register/memory path refuses a form, and only once its mode byte is there. -/
theorem invalidFieldExactly : Obligations.InvalidFieldExactly := by
  intro s p
  by_cases hp : p < s.n
  · have htwo : 2 ≤ s.n - p ↔ p + 2 ≤ s.n := by omega
    rw [decodeAt_invalidField_iff hp, classify_eq_movRm_iff_range, isDirectAddress_iff_mask, htwo]
    tauto
  · rw [decodeAt_of_le (Nat.le_of_not_lt hp)]
    exact iff_of_false nofun fun ⟨_, hfit, _⟩ => hp (by omega)

/-- Settles O24: `FileUnavailable` is none of the errors of a decode call. -/
theorem decodeNeverRaisesFileUnavailable : Obligations.DecodeNeverRaisesFileUnavailable := by
  intro policy bytes h
  obtain hk | ⟨hk, -⟩ | ⟨hk, -⟩ := decodeBytes_error_cases h <;> cases hk

end Sys2Proof.Machine
end

section
/-! PROOFS. The statements of 70_reset_and_hazards.md, after what loading an input leaves in the buffer. -/

namespace Sys2Proof.Machine

open Sys2Proof.Safety

/-- A fresh run asks only for a sound buffer: the cursor is at 0, `RUNNING` claims nothing and no line is written. -/
theorem runInv_resetRun {s : State} (h : bufOk s) : runInv (resetRun s) :=
  ⟨h, Nat.zero_le s.n, trivial, nofun⟩

theorem bufOk_loadInput (s : State) (input : List Byte) : bufOk (loadInput s input) :=
  ⟨wf_writeBytes 0 input wf_nil, writeBytes_below input nofun (Nat.zero_add input.length).le⟩

theorem bufRead_loadInput (s : State) (input : List Byte) (a : Nat) : bufRead (loadInput s input) a = input[a]? := by
  by_cases ha : a < input.length
  · simp [bufRead, read_writeBytes 0 input a wf_nil, ha]
  · simp [bufRead, ha]

theorem bufRead_resetRun (s : State) (a : Nat) : bufRead (resetRun s) a = bufRead s a := rfl

/-- Settles O42: the run starts on the loaded input, and starting it leaves the buffer alone. -/
theorem launchLoadsTheInput : Obligations.LaunchLoadsTheInput := by
  intro policy input
  refine ⟨⟨_, rfl, runInv_resetRun (bufOk_loadInput _ input), rfl, fun a => ?_, rfl, rfl, rfl, rfl⟩, rfl⟩
  rw [bufRead_resetRun, bufRead_loadInput]

/-- Settles O44: of the invariant of the state before, only the soundness of the buffer is needed. -/
theorem resetStartsANewRun : Obligations.ResetStartsANewRun :=
  fun _ => ⟨rfl, rfl, rfl, rfl, rfl, rfl, fun ⟨hbuf, _⟩ => runInv_resetRun hbuf⟩

end Sys2Proof.Machine
end

section
/-! PROOFS. The statement of 10_state.md on the state after reset. -/

namespace Sys2Proof.Machine

open Sys2Proof.Safety

/-- With nothing loaded the buffer lists no offset. -/
theorem bufOk_reset : bufOk State.reset := ⟨wf_nil, nofun⟩

theorem resetRun_reset : resetRun State.reset = State.reset := rfl

/-- Settles O41: the reset state is a fresh run on the empty buffer, so it meets what every fresh run on a sound buffer
meets. -/
theorem runInvariantAtReset : Obligations.RunInvariantAtReset :=
  ⟨resetRun_reset ▸ runInv_resetRun bufOk_reset, resetRun_reset⟩

end Sys2Proof.Machine
end
